-- ==== Sys2Proof/Word.lean ====
section
/-! DEFINITION. The word types of the machine: bytes, 16-bit words and register numbers (spec/00_scope.md R6,
spec/10_state.md R20). All values are unsigned. -/

namespace Sys2Proof

/-- An 8-bit value: a general register, a timer, a memory cell, an `NN` immediate. -/
abbrev Byte := BitVec 8

/-- A 16-bit value: `pc`, `I`, a stack entry, an instruction word. -/
abbrev Word := BitVec 16

/-- A register number 0 to 15 (R20). -/
abbrev RegNo := Fin 16

/-- Two bytes as one word, the first in the high bits (R6, R55). -/
def Word.ofBytes (hi lo : Byte) : Word := hi ++ lo

end Sys2Proof
end

