-- ==== Sys2Proof/Syntax.lean ====
section
/-! DEFINITION. The 35 instructions, one constructor per row of spec/opcode_table.json in the order of
spec/30_encoding.md R87. Operands are the fields of R81 that the row names. -/

namespace Sys2Proof

/-- An instruction (R87). `x`, `y` are register numbers, `n`, `nn`, `nnn` unsigned immediates (R83). -/
inductive Instr where
  /-- `00E0` CLS (R150) -/
  | cls
  /-- `00EE` RET (R101) -/
  | ret
  /-- `0NNN` SYS NNN (R100), every `NNN` but 0x0E0 and 0x0EE -/
  | sys (nnn : BitVec 12)
  /-- `1NNN` JP NNN (R102) -/
  | jp (nnn : BitVec 12)
  /-- `2NNN` CALL NNN (R103) -/
  | call (nnn : BitVec 12)
  /-- `3XNN` SE Vx, NN (R110) -/
  | seImm (x : RegNo) (nn : Byte)
  /-- `4XNN` SNE Vx, NN (R111) -/
  | sneImm (x : RegNo) (nn : Byte)
  /-- `5XY0` SE Vx, Vy (R112) -/
  | seReg (x y : RegNo)
  /-- `6XNN` LD Vx, NN (R120) -/
  | ldImm (x : RegNo) (nn : Byte)
  /-- `7XNN` ADD Vx, NN (R121) -/
  | addImm (x : RegNo) (nn : Byte)
  /-- `8XY0` LD Vx, Vy (R122) -/
  | ldReg (x y : RegNo)
  /-- `8XY1` OR Vx, Vy (R123) -/
  | orReg (x y : RegNo)
  /-- `8XY2` AND Vx, Vy (R124) -/
  | andReg (x y : RegNo)
  /-- `8XY3` XOR Vx, Vy (R125) -/
  | xorReg (x y : RegNo)
  /-- `8XY4` ADD Vx, Vy (R126) -/
  | addReg (x y : RegNo)
  /-- `8XY5` SUB Vx, Vy (R127) -/
  | sub (x y : RegNo)
  /-- `8XY6` SHR Vx {, Vy} (R128); `y` is encoded and ignored -/
  | shr (x y : RegNo)
  /-- `8XY7` SUBN Vx, Vy (R129) -/
  | subn (x y : RegNo)
  /-- `8XYE` SHL Vx {, Vy} (R130); `y` is encoded and ignored -/
  | shl (x y : RegNo)
  /-- `9XY0` SNE Vx, Vy (R113) -/
  | sneReg (x y : RegNo)
  /-- `ANNN` LD I, NNN (R140) -/
  | ldI (nnn : BitVec 12)
  /-- `BNNN` JP V0, NNN (R104) -/
  | jpV0 (nnn : BitVec 12)
  /-- `CXNN` RND Vx, NN (R131) -/
  | rnd (x : RegNo) (nn : Byte)
  /-- `DXYN` DRW Vx, Vy, N (R151) -/
  | drw (x y : RegNo) (n : BitVec 4)
  /-- `EX9E` SKP Vx (R160) -/
  | skp (x : RegNo)
  /-- `EXA1` SKNP Vx (R161) -/
  | sknp (x : RegNo)
  /-- `FX07` LD Vx, DT (R170) -/
  | ldVxDt (x : RegNo)
  /-- `FX0A` LD Vx, K (R162) -/
  | ldVxK (x : RegNo)
  /-- `FX15` LD DT, Vx (R171) -/
  | ldDtVx (x : RegNo)
  /-- `FX18` LD ST, Vx (R172) -/
  | ldStVx (x : RegNo)
  /-- `FX1E` ADD I, Vx (R141) -/
  | addI (x : RegNo)
  /-- `FX29` LD F, Vx (R142) -/
  | ldF (x : RegNo)
  /-- `FX33` LD B, Vx (R143) -/
  | ldB (x : RegNo)
  /-- `FX55` LD [I], Vx (R144); `x` is also the count of registers less one -/
  | storeRegs (x : RegNo)
  /-- `FX65` LD Vx, [I] (R145); `x` is also the count of registers less one -/
  | loadRegs (x : RegNo)
  deriving DecidableEq, Repr

end Sys2Proof
end

