-- ==== Sys2Proof/Decode.lean ====
section
/-! DEFINITION. The decoder (spec/30_encoding.md R86: dispatch on the top nibble, then on the bottom nibble or byte), total
on any bytes and rejecting by name; the encoder, from the same rows; and the opcode table of R87 as data, to be read in
first-match order (R93). -/

namespace Sys2Proof

/-- Why bytes are no instruction. The five families of R88 are those with illegal words; `truncated` is for the byte
decoder, given fewer than the two bytes every instruction has (R80). -/
inductive DecodeReject where
  /-- `5XYN` with `N != 0` (R88) -/
  | family5
  /-- `8XYN` with `N` in 8..D or F (R88) -/
  | family8
  /-- `9XYN` with `N != 0` (R88) -/
  | family9
  /-- `EXNN` with `NN` other than 9E, A1 (R88) -/
  | familyE
  /-- `FXNN` with `NN` not in the nine of R88 -/
  | familyF
  /-- fewer than two bytes -/
  | truncated
  deriving DecidableEq, Repr

/-- `fam = op[15:12]` (R81). -/
def famField (op : Word) : BitVec 4 := op.extractLsb' 12 4

/-- `X = op[11:8]`, a register number (R81). -/
def xField (op : Word) : RegNo := (op.extractLsb' 8 4).toFin

/-- `Y = op[7:4]`, a register number (R81). -/
def yField (op : Word) : RegNo := (op.extractLsb' 4 4).toFin

/-- `N = op[3:0]` (R81). -/
def nField (op : Word) : BitVec 4 := op.extractLsb' 0 4

/-- `NN = op[7:0]` (R81). -/
def nnField (op : Word) : Byte := op.extractLsb' 0 8

/-- `NNN = op[11:0]` (R81). -/
def nnnField (op : Word) : BitVec 12 := op.extractLsb' 0 12

/-- Family 0 sub-dispatches on all of `NNN` (R86, R93). -/
def decodeFamily0 (op : Word) : Instr :=
  if nnnField op = 0x0E0#12 then .cls
  else if nnnField op = 0x0EE#12 then .ret
  else .sys (nnnField op)

/-- Family 5: `5XY0` only (R87, R88). -/
def decodeFamily5 (op : Word) : Except DecodeReject Instr :=
  if nField op = 0x0#4 then .ok (.seReg (xField op) (yField op)) else .error .family5

/-- Family 8 sub-dispatches on the bottom nibble (R86, R87). -/
def decodeFamily8 (op : Word) : Except DecodeReject Instr :=
  let x := xField op
  let y := yField op
  match (nField op).toNat with
  | 0x0 => .ok (.ldReg x y)
  | 0x1 => .ok (.orReg x y)
  | 0x2 => .ok (.andReg x y)
  | 0x3 => .ok (.xorReg x y)
  | 0x4 => .ok (.addReg x y)
  | 0x5 => .ok (.sub x y)
  | 0x6 => .ok (.shr x y)
  | 0x7 => .ok (.subn x y)
  | 0xE => .ok (.shl x y)
  | _ => .error .family8

/-- Family 9: `9XY0` only (R87, R88). -/
def decodeFamily9 (op : Word) : Except DecodeReject Instr :=
  if nField op = 0x0#4 then .ok (.sneReg (xField op) (yField op)) else .error .family9

/-- Family E sub-dispatches on the bottom byte (R86, R87). -/
def decodeFamilyE (op : Word) : Except DecodeReject Instr :=
  let x := xField op
  match (nnField op).toNat with
  | 0x9E => .ok (.skp x)
  | 0xA1 => .ok (.sknp x)
  | _ => .error .familyE

/-- Family F sub-dispatches on the bottom byte (R86, R87). -/
def decodeFamilyF (op : Word) : Except DecodeReject Instr :=
  let x := xField op
  match (nnField op).toNat with
  | 0x07 => .ok (.ldVxDt x)
  | 0x0A => .ok (.ldVxK x)
  | 0x15 => .ok (.ldDtVx x)
  | 0x18 => .ok (.ldStVx x)
  | 0x1E => .ok (.addI x)
  | 0x29 => .ok (.ldF x)
  | 0x33 => .ok (.ldB x)
  | 0x55 => .ok (.storeRegs x)
  | 0x65 => .ok (.loadRegs x)
  | _ => .error .familyF

/-- The instruction a 16-bit word is, a pure function of its bits (R86, R87, R93), or the family that has no such word
(R88). The last arm is family F. -/
def decodeWord (op : Word) : Except DecodeReject Instr :=
  match (famField op).toNat with
  | 0x0 => .ok (decodeFamily0 op)
  | 0x1 => .ok (.jp (nnnField op))
  | 0x2 => .ok (.call (nnnField op))
  | 0x3 => .ok (.seImm (xField op) (nnField op))
  | 0x4 => .ok (.sneImm (xField op) (nnField op))
  | 0x5 => decodeFamily5 op
  | 0x6 => .ok (.ldImm (xField op) (nnField op))
  | 0x7 => .ok (.addImm (xField op) (nnField op))
  | 0x8 => decodeFamily8 op
  | 0x9 => decodeFamily9 op
  | 0xA => .ok (.ldI (nnnField op))
  | 0xB => .ok (.jpV0 (nnnField op))
  | 0xC => .ok (.rnd (xField op) (nnField op))
  | 0xD => .ok (.drw (xField op) (yField op) (nField op))
  | 0xE => decodeFamilyE op
  | _ => decodeFamilyF op

/-- The instruction at the head of a byte string and the bytes after it: two bytes, high byte first (R80, R55). -/
def decode : List Byte → Except DecodeReject (Instr × List Byte)
  | hi :: lo :: rest => (decodeWord (Word.ofBytes hi lo)).map (fun i => (i, rest))
  | _ => .error .truncated

/-- A register number as the nibble that encodes it. -/
def nibble (r : RegNo) : BitVec 4 := BitVec.ofFin r

/-- Format XYN (R82): `fam`, `X`, `Y`, `N`. -/
def encodeXYN (fam : BitVec 4) (x y : RegNo) (n : BitVec 4) : Word := fam ++ nibble x ++ nibble y ++ n

/-- Formats XNN and X (R82): `fam`, `X`, `NN`. -/
def encodeXNN (fam : BitVec 4) (x : RegNo) (nn : Byte) : Word := fam ++ nibble x ++ nn

/-- Format NNN (R82): `fam`, `NNN`. -/
def encodeNNN (fam : BitVec 4) (nnn : BitVec 12) : Word := fam ++ nnn

/-- The word of an instruction, from the pattern column of R87. -/
def encode : Instr → Word
  | .cls => 0x00E0#16
  | .ret => 0x00EE#16
  | .sys nnn => encodeNNN 0x0#4 nnn
  | .jp nnn => encodeNNN 0x1#4 nnn
  | .call nnn => encodeNNN 0x2#4 nnn
  | .seImm x nn => encodeXNN 0x3#4 x nn
  | .sneImm x nn => encodeXNN 0x4#4 x nn
  | .seReg x y => encodeXYN 0x5#4 x y 0x0#4
  | .ldImm x nn => encodeXNN 0x6#4 x nn
  | .addImm x nn => encodeXNN 0x7#4 x nn
  | .ldReg x y => encodeXYN 0x8#4 x y 0x0#4
  | .orReg x y => encodeXYN 0x8#4 x y 0x1#4
  | .andReg x y => encodeXYN 0x8#4 x y 0x2#4
  | .xorReg x y => encodeXYN 0x8#4 x y 0x3#4
  | .addReg x y => encodeXYN 0x8#4 x y 0x4#4
  | .sub x y => encodeXYN 0x8#4 x y 0x5#4
  | .shr x y => encodeXYN 0x8#4 x y 0x6#4
  | .subn x y => encodeXYN 0x8#4 x y 0x7#4
  | .shl x y => encodeXYN 0x8#4 x y 0xE#4
  | .sneReg x y => encodeXYN 0x9#4 x y 0x0#4
  | .ldI nnn => encodeNNN 0xA#4 nnn
  | .jpV0 nnn => encodeNNN 0xB#4 nnn
  | .rnd x nn => encodeXNN 0xC#4 x nn
  | .drw x y n => encodeXYN 0xD#4 x y n
  | .skp x => encodeXNN 0xE#4 x 0x9E#8
  | .sknp x => encodeXNN 0xE#4 x 0xA1#8
  | .ldVxDt x => encodeXNN 0xF#4 x 0x07#8
  | .ldVxK x => encodeXNN 0xF#4 x 0x0A#8
  | .ldDtVx x => encodeXNN 0xF#4 x 0x15#8
  | .ldStVx x => encodeXNN 0xF#4 x 0x18#8
  | .addI x => encodeXNN 0xF#4 x 0x1E#8
  | .ldF x => encodeXNN 0xF#4 x 0x29#8
  | .ldB x => encodeXNN 0xF#4 x 0x33#8
  | .storeRegs x => encodeXNN 0xF#4 x 0x55#8
  | .loadRegs x => encodeXNN 0xF#4 x 0x65#8

/-- One row of the opcode table of R87: a word `op` selects it where `op & mask = bits`, and is then `build op`. -/
structure OpcodeRow where
  mask : Word
  bits : Word
  build : Word → Instr

/-- Rows 1 to 20 of R87 (00E0 to 9XY0), in its order. -/
def opcodeRowsLow : List OpcodeRow :=
  [⟨0xFFFF, 0x00E0, fun _ => .cls⟩,
   ⟨0xFFFF, 0x00EE, fun _ => .ret⟩,
   ⟨0xF000, 0x0000, fun op => .sys (nnnField op)⟩,
   ⟨0xF000, 0x1000, fun op => .jp (nnnField op)⟩,
   ⟨0xF000, 0x2000, fun op => .call (nnnField op)⟩,
   ⟨0xF000, 0x3000, fun op => .seImm (xField op) (nnField op)⟩,
   ⟨0xF000, 0x4000, fun op => .sneImm (xField op) (nnField op)⟩,
   ⟨0xF00F, 0x5000, fun op => .seReg (xField op) (yField op)⟩,
   ⟨0xF000, 0x6000, fun op => .ldImm (xField op) (nnField op)⟩,
   ⟨0xF000, 0x7000, fun op => .addImm (xField op) (nnField op)⟩,
   ⟨0xF00F, 0x8000, fun op => .ldReg (xField op) (yField op)⟩,
   ⟨0xF00F, 0x8001, fun op => .orReg (xField op) (yField op)⟩,
   ⟨0xF00F, 0x8002, fun op => .andReg (xField op) (yField op)⟩,
   ⟨0xF00F, 0x8003, fun op => .xorReg (xField op) (yField op)⟩,
   ⟨0xF00F, 0x8004, fun op => .addReg (xField op) (yField op)⟩,
   ⟨0xF00F, 0x8005, fun op => .sub (xField op) (yField op)⟩,
   ⟨0xF00F, 0x8006, fun op => .shr (xField op) (yField op)⟩,
   ⟨0xF00F, 0x8007, fun op => .subn (xField op) (yField op)⟩,
   ⟨0xF00F, 0x800E, fun op => .shl (xField op) (yField op)⟩,
   ⟨0xF00F, 0x9000, fun op => .sneReg (xField op) (yField op)⟩]

/-- Rows 21 to 35 of R87 (ANNN to FX65), in its order. -/
def opcodeRowsHigh : List OpcodeRow :=
  [⟨0xF000, 0xA000, fun op => .ldI (nnnField op)⟩,
   ⟨0xF000, 0xB000, fun op => .jpV0 (nnnField op)⟩,
   ⟨0xF000, 0xC000, fun op => .rnd (xField op) (nnField op)⟩,
   ⟨0xF000, 0xD000, fun op => .drw (xField op) (yField op) (nField op)⟩,
   ⟨0xF0FF, 0xE09E, fun op => .skp (xField op)⟩,
   ⟨0xF0FF, 0xE0A1, fun op => .sknp (xField op)⟩,
   ⟨0xF0FF, 0xF007, fun op => .ldVxDt (xField op)⟩,
   ⟨0xF0FF, 0xF00A, fun op => .ldVxK (xField op)⟩,
   ⟨0xF0FF, 0xF015, fun op => .ldDtVx (xField op)⟩,
   ⟨0xF0FF, 0xF018, fun op => .ldStVx (xField op)⟩,
   ⟨0xF0FF, 0xF01E, fun op => .addI (xField op)⟩,
   ⟨0xF0FF, 0xF029, fun op => .ldF (xField op)⟩,
   ⟨0xF0FF, 0xF033, fun op => .ldB (xField op)⟩,
   ⟨0xF0FF, 0xF055, fun op => .storeRegs (xField op)⟩,
   ⟨0xF0FF, 0xF065, fun op => .loadRegs (xField op)⟩]

/-- The opcode table of R87: 35 rows, tested in order, the first match taken (R93). -/
def opcodeTable : List OpcodeRow := opcodeRowsLow ++ opcodeRowsHigh

/-- First-match decoding over rows (R87, R93): the table reading of the decoder. -/
def firstMatch (op : Word) : List OpcodeRow → Option Instr
  | [] => none
  | r :: rows => if op &&& r.mask = r.bits then some (r.build op) else firstMatch op rows

/-- The two bytes, high byte first, of the 16-bit word `w` (its bits above `nbits` read as zero). -/
def tableWordBytes (nbits w : Nat) : List Byte :=
  let op := w % 2 ^ nbits
  [BitVec.ofNat 8 (op / 256), BitVec.ofNat 8 op]

/-- The instruction the decoder reads from an instruction whose bits are `w`, numbered as spec/opcode_table.json numbers
them; the word is laid out high byte first (R55). Every instruction is 16 bits (R80), so longer words are none. -/
def decodeTableWord (nbits w : Nat) : Option Instr :=
  if 65536 ≤ w % 2 ^ nbits then none
  else
    match decode (tableWordBytes nbits w) with
    | .ok (i, _) => some i
    | .error _ => none

end Sys2Proof
end

