-- ==== Sys2Proof/Config.lean ====
section
/-! DEFINITION. What this hardware fixes (spec/00_scope.md R4, R5: the defaults), the font bytes of
spec/70_reset_and_hazards.md R203, and the free values: the step inputs nobody has fixed (spec/10_state.md R36). -/

namespace Sys2Proof

/-- `MEM_SIZE` (R4). -/
abbrev Config.memSize : Nat := 4096
/-- `FB_WIDTH` (R4). -/
abbrev Config.fbWidth : Nat := 64
/-- `FB_HEIGHT` (R4). -/
abbrev Config.fbHeight : Nat := 32
/-- `PC_RESET` (R4). -/
abbrev Config.pcReset : Word := 0x200#16
/-- `STACK_DEPTH` (R4). -/
abbrev Config.stackDepth : Nat := 16
/-- `TIMER_HZ` (R4); "never read by any rule" (R5), and by no definition of this model. -/
abbrev Config.timerHz : Nat := 60
/-- `LOAD_BASE` (R5). -/
abbrev Config.loadBase : Nat := 0x200
/-- `FONT_BASE` (R5). -/
abbrev Config.fontBase : Nat := 0x000
/-- `FONT_STRIDE` (R5). -/
abbrev Config.fontStride : Nat := 5

/-- FREE VALUE (log 1): the key levels of a step whose inputs the host has not fixed; no rule constrains them (R36,
spec/93_implementation_defined.md U16). The argument is the count of such steps. -/
opaque Config.freeKeys : Nat → BitVec 16

/-- FREE VALUE (log 1): whether a timer period has elapsed, for a step whose inputs the host has not fixed (R36, U15). -/
opaque Config.freeTickDue : Nat → Bool

/-- FREE VALUE (log 1): the random byte of a step whose inputs the host has not fixed (R36, U14). -/
opaque Config.freeRnd : Nat → Byte

/-- The 16 glyphs of the hexadecimal font, five rows each (R203). The core does not hold them: the host may load them. -/
def Config.fontBytes : List Byte :=
  [0xF0, 0x90, 0x90, 0x90, 0xF0] ++ [0x20, 0x60, 0x20, 0x20, 0x70] ++
  [0xF0, 0x10, 0xF0, 0x80, 0xF0] ++ [0xF0, 0x10, 0xF0, 0x10, 0xF0] ++
  [0x90, 0x90, 0xF0, 0x10, 0x10] ++ [0xF0, 0x80, 0xF0, 0x10, 0xF0] ++
  [0xF0, 0x80, 0xF0, 0x90, 0xF0] ++ [0xF0, 0x10, 0x20, 0x40, 0x40] ++
  [0xF0, 0x90, 0xF0, 0x90, 0xF0] ++ [0xF0, 0x90, 0xF0, 0x10, 0xF0] ++
  [0xF0, 0x90, 0xF0, 0x90, 0x90] ++ [0xE0, 0x90, 0xE0, 0x90, 0xE0] ++
  [0xF0, 0x80, 0x80, 0x80, 0xF0] ++ [0xE0, 0x90, 0x90, 0x90, 0xE0] ++
  [0xF0, 0x80, 0xF0, 0x80, 0xF0] ++ [0xF0, 0x80, 0xF0, 0x80, 0x80]

end Sys2Proof
end

