-- ==== Sys2Proof/Machine/State.lean ====
section
/-! DEFINITION. The machine state of spec/10_state.md as plain data, the two fields that carry the step inputs of R36, the
reset state of R40, and the reasons a step can stop. -/

namespace Sys2Proof.Machine

/-- `fault.cause` (spec/10_state.md R31) with the causes of spec/60_exceptions.md R180. -/
inductive Cause where
  /-- code 0: no fault, the core is running -/
  | running
  /-- code 1 (R181) -/
  | decodeError
  /-- code 2 (R182) -/
  | stackOverflow
  /-- code 3 (R183) -/
  | stackUnderflow
  /-- code 4 (R184) -/
  | fetchFault
  /-- code 5 (R185) -/
  | dataFault
  /-- code 6 (R186) -/
  | keyIndexFault
  deriving DecidableEq, Repr

/-- The fault record of R31. -/
structure FaultRecord where
  cause : Cause
  pc : Word
  opcode : Word
  deriving DecidableEq, Repr

/-- The record of a running core: "When `cause = 0` the other two fields are 0" (R31). -/
def FaultRecord.clear : FaultRecord := { cause := .running, pc := 0, opcode := 0 }

/-- The inputs of one step, sampled once at its start (R36): `keys` (bit `k` = key `k` pressed), `tick_due`, `rnd`. -/
structure StepIn where
  keys : BitVec 16
  tickDue : Bool
  rnd : Byte
  deriving DecidableEq, Repr

/-- Main memory (R33): the cells whose byte is not what an unlisted address reads as, addresses rising. -/
abbrev Memory := List Host.Cell

/-- The framebuffer (R34), one bit per pixel, 1 = on, held row by row (log 7): row `y` first to last, bit `x` of a row its pixel
`(x, y)`. The linear element `x + FB_WIDTH * y` of R34 is the view `Framebuffer.element`. -/
abbrev Framebuffer := Vector (BitVec Config.fbWidth) Config.fbHeight

/-- The whole machine state (spec/10_state.md, head). `inputs` and `draws` are the MODEL's own fields (log 1): the inputs the
host has fixed for the coming steps, and the count of steps whose inputs were free values. -/
structure State where
  /-- the general registers V0..VF (R20, R21) -/
  V : Vector Byte 16
  /-- the index register (R22) -/
  I : Word
  /-- the program counter (R23) -/
  pc : Word
  /-- the call stack (R24) -/
  stack : Vector Word Config.stackDepth
  /-- the stack pointer, 0 to `STACK_DEPTH` (R25) -/
  sp : Fin (Config.stackDepth + 1)
  /-- the delay timer (R26) -/
  DT : Byte
  /-- the sound timer (R27) -/
  ST : Byte
  /-- sound-timer-just-reached-zero (R29) -/
  sndZero : Bool
  /-- display-was-written (R30) -/
  dispWritten : Bool
  /-- the fault record (R31) -/
  fault : FaultRecord
  /-- the keys of the previous completed step (R32) -/
  keyPrev : BitVec 16
  /-- main memory (R33) -/
  mem : Memory
  /-- the framebuffer (R34) -/
  fb : Framebuffer
  /-- the model's own: step inputs the host has already fixed, next first (log 1) -/
  inputs : List StepIn
  /-- the model's own: how many steps have taken free inputs (log 1) -/
  draws : Nat
  deriving DecidableEq, Repr

/-- A reason for the model to stop with a fault. There is none, and so no constructor: every fault of this machine is
architectural (spec/60_exceptions.md R188: a NEXT state with the record written and the core halted), and every state has a
step (spec/93_implementation_defined.md: "stuck" is used nowhere). Nothing raises it; safe. -/
inductive Fault where
  deriving DecidableEq, Repr

/-- A reason for the model to refuse an instruction. -/
inductive Refusal where
  /-- the instruction has no meaning in this model yet; raised only by an arm of `exec`, of which none is left; safe -/
  | notModelled (mnemonic : String)
  deriving DecidableEq, Repr

/-- The state after reset: the table of R40. `inputs` and `draws` are the model's (log 2). -/
def State.reset : State where
  V := Vector.replicate 16 0
  I := 0
  pc := Config.pcReset
  stack := Vector.replicate Config.stackDepth 0
  sp := 0
  DT := 0
  ST := 0
  sndZero := false
  dispWritten := false
  fault := FaultRecord.clear
  keyPrev := 0
  mem := []
  fb := Vector.replicate Config.fbHeight 0
  inputs := []
  draws := 0

end Sys2Proof.Machine
end

