-- ==== Sys2Proof/Machine/Ops.lean ====
section
/-! DEFINITION. The named operations over the state: main memory, framebuffer, keypad (the Bus of spec/20_memory.md R65),
registers, stack, taking a fault (spec/60_exceptions.md R188), the phases of a step around execution
(spec/30_encoding.md R84), and what the host does between steps. -/

namespace Sys2Proof.Machine

/-! ## Main memory (R51 to R54) -/

/-- What an address that is not listed reads as: memory is "fully zeroed on reset" (R33, R54). -/
def Memory.unlisted : Byte := 0x00#8

/-- The byte at an address (R52), the range check aside. -/
def Memory.read : Memory → Nat → Byte
  | [], _ => Memory.unlisted
  | c :: rest, a => if c.1 = a then c.2 else Memory.read rest a

/-- The memory without its entry for `a`. -/
def Memory.erase (m : Memory) (a : Nat) : Memory := m.filter (fun c => c.1 != a)

/-- The memory with an entry put before the first higher address. -/
def Memory.insert : Memory → Nat → Byte → Memory
  | [], a, b => [(a, b)]
  | c :: rest, a, b => if a < c.1 then (a, b) :: c :: rest else c :: Memory.insert rest a b

/-- `mem[a] <- b` (R53), the range check aside; keeps the canonical form `Memory.wf`. -/
def Memory.write (m : Memory) (a : Nat) (b : Byte) : Memory :=
  if b = Memory.unlisted then m.erase a else (m.erase a).insert a b

/-- The canonical form: addresses strictly rising, no entry equal to what an unlisted address reads as, every address
below `MEM_SIZE` (R33). -/
abbrev Memory.wf (m : Memory) : Prop :=
  m.Pairwise (fun c d => c.1 < d.1) ∧ ∀ c ∈ m, c.2 ≠ Memory.unlisted ∧ c.1 < Config.memSize

/-- Bytes at consecutive addresses from `a` up (R56), the range check aside. -/
def Memory.writeList (m : Memory) (a : Nat) : List Byte → Memory
  | [] => m
  | b :: rest => Memory.writeList (m.write a b) (a + 1) rest

/-- Do `n` bytes from address `a` lie in memory? Addresses are naturals and never wrap (R7, R52). -/
def inMemory (a n : Nat) : Bool := n == 0 || a + n ≤ Config.memSize

/-- `MemRead(a, 1)` (R52): the byte, or none where the step faults. -/
def State.memRead? (s : State) (a : Nat) : Option Byte :=
  if inMemory a 1 then some (s.mem.read a) else none

/-- The `n` bytes from `a` up, or none where one of them is out of range: the whole range is checked before the first access
(R53, R185). -/
def State.loadBytes? (s : State) (a n : Nat) : Option (List Byte) :=
  if inMemory a n then some ((List.range n).map (fun k => s.mem.read (a + k))) else none

/-- The bytes `bs` stored from `a` up, or none where one of the addresses is out of range, and nothing is written then (R53,
R185). -/
def State.storeBytes? (s : State) (a : Nat) (bs : List Byte) : Option State :=
  if inMemory a bs.length then some { s with mem := s.mem.writeList a bs } else none

/-! ## Framebuffer (R62, R63) -/

/-- The column `x mod FB_WIDTH` (R62). -/
def wrapX (x : Nat) : Nat := x % Config.fbWidth

/-- The row `y mod FB_HEIGHT` (R62). -/
def wrapY (y : Nat) : Fin Config.fbHeight := ⟨y % Config.fbHeight, Nat.mod_lt _ (by decide)⟩

/-- A row of pixels with pixel `k` put to `b`. -/
def setPixel (row : BitVec Config.fbWidth) (k : Nat) (b : Bool) : BitVec Config.fbWidth :=
  if b then row ||| BitVec.twoPow Config.fbWidth k else row &&& ~~~BitVec.twoPow Config.fbWidth k

/-- `FbRead(x, y)` for any naturals (R62). -/
def Framebuffer.read (f : Framebuffer) (x y : Nat) : Bool := f[(wrapY y).val].getLsbD (wrapX x)

/-- `FbWrite(x, y, b)` for any naturals (R62). -/
def Framebuffer.write (f : Framebuffer) (x y : Nat) (b : Bool) : Framebuffer :=
  f.set (wrapY y).val (setPixel f[(wrapY y).val] (wrapX x) b)

/-- `FbClear()` (R62). -/
def Framebuffer.cleared : Framebuffer := Vector.replicate Config.fbHeight 0

/-- The linear index of `(x, y)` after normalisation (R62, R63). -/
def pixelIndex (x y : Nat) : Nat := x % Config.fbWidth + Config.fbWidth * (y % Config.fbHeight)

/-- Element `k` of the framebuffer as the linear array of R34. -/
def Framebuffer.element (f : Framebuffer) (k : Nat) : Bool := f.read (k % Config.fbWidth) (k / Config.fbWidth)

/-! ## Keypad (R64) and the step inputs (R36) -/

/-- The inputs of the coming step (R36): those the host has fixed, else free values (log 1). -/
def State.input (s : State) : StepIn :=
  match s.inputs with
  | [] => { keys := Config.freeKeys s.draws, tickDue := Config.freeTickDue s.draws, rnd := Config.freeRnd s.draws }
  | i :: _ => i

/-- The step inputs are used up: the queue moves on, or the count of free inputs does (log 1). -/
def State.nextInput (s : State) : State :=
  match s.inputs with
  | [] => { s with draws := s.draws + 1 }
  | _ :: rest => { s with inputs := rest }

/-- `KeyGet(k)` on a sample of key levels (R64): bit `k`. -/
def keyGet (keys : BitVec 16) (k : RegNo) : Bool := keys.getLsbD k.val

/-- The least `k` in 0..15 with bit `k` set, if any (R162). -/
def lowestKey (keys : BitVec 16) : Option Nat := (List.range 16).find? (fun k => keys.getLsbD k)

/-! ## Registers (R20 to R27) -/

/-- `VF`, register 15 (R21). -/
def vf : RegNo := 15

/-- `x[r]` (R20). -/
def State.reg (s : State) (r : RegNo) : Byte := s.V[r.val]

/-- `x[r] <- b` (R20). -/
def State.setReg (s : State) (r : RegNo) (b : Byte) : State := { s with V := s.V.set r.val b }

/-- `x[k], x[k+1], ... <- ` the bytes of a list, as far as there are registers (R145). -/
def setRegsFrom (v : Vector Byte 16) (k : Nat) : List Byte → Vector Byte 16
  | [] => v
  | b :: rest => setRegsFrom (v.setIfInBounds k b) (k + 1) rest

/-- `x[0], x[1], ... <- ` the bytes of a list (R145). -/
def State.setRegs (s : State) (bs : List Byte) : State := { s with V := setRegsFrom s.V 0 bs }

/-- `pc <- t` (R23). -/
def State.setPc (s : State) (t : Word) : State := { s with pc := t }

/-- `I <- v` (R22). -/
def State.setI (s : State) (v : Word) : State := { s with I := v }

/-- `DT <- v` (R26). -/
def State.setDT (s : State) (v : Byte) : State := { s with DT := v }

/-- `ST <- v` (R27); raises no signal (R172). -/
def State.setST (s : State) (v : Byte) : State := { s with ST := v }

/-- The framebuffer takes a new picture and `disp_written <- 1` (R30). -/
def State.display (s : State) (f : Framebuffer) : State := { s with fb := f, dispWritten := true }

/-- Skip the next instruction where `c` holds: `pc <- (pc + 2) mod 65536` (spec/41_skip.md). -/
def State.skipIf (s : State) (c : Bool) : State := { s with pc := if c then s.pc + 2 else s.pc }

/-! ## Call stack (R24, R25, R73) -/

/-- `stack[sp] <- a; sp <- sp + 1`, or none with the stack full (R103). -/
def State.push? (s : State) (a : Word) : Option State :=
  if h : s.sp.val < Config.stackDepth then
    some { s with stack := s.stack.set s.sp.val a h, sp := ⟨s.sp.val + 1, Nat.succ_lt_succ h⟩ }
  else none

/-- `sp <- sp - 1` and `stack[sp]`, or none with the stack empty; the popped entry keeps its value (R101). -/
def State.pop? (s : State) : Option (Word × State) :=
  if h : 0 < s.sp.val then
    have hk : s.sp.val - 1 < Config.stackDepth := by have := s.sp.isLt; omega
    some (s.stack[s.sp.val - 1], { s with sp := ⟨s.sp.val - 1, Nat.lt_succ_of_lt hk⟩ })
  else none

/-! ## Faults (spec/60_exceptions.md) -/

/-- The cause codes of R180. -/
def Cause.code : Cause → BitVec 3
  | .running => 0
  | .decodeError => 1
  | .stackOverflow => 2
  | .stackUnderflow => 3
  | .fetchFault => 4
  | .dataFault => 5
  | .keyIndexFault => 6

/-- Halted: `fault.cause != 0` (R31, R189). -/
def State.halted (s : State) : Bool := s.fault.cause != .running

/-- Fault entry (R188): the state before the step, but for the two flags and the record. It is given the state before any
write of the instruction, so putting `pc0` back is all there is to undo. -/
def State.enterFault (s : State) (c : Cause) (pc0 op : Word) : State :=
  { s with pc := pc0, sndZero := false, dispWritten := false, fault := { cause := c, pc := pc0, opcode := op } }

/-- `raise c` in phase 3 of instruction `i` (R7, R188): `pc` then holds `pc0 + 2`, and the faulting word is the word of `i`
(log 5). -/
def State.raise (s : State) (c : Cause) (i : Instr) : Host.Outcome State Fault Refusal :=
  .next (s.enterFault c (s.pc - 2) (encode i))

/-! ## The phases around execution (R84) -/

/-- Phase 1: both flags cleared (R29, R30). -/
def State.clearFlags (s : State) : State := { s with sndZero := false, dispWritten := false }

/-- The fetched word `{MemRead(pc, 1), MemRead(pc + 1, 1)}` of phase 2, or none where either read faults (R55, R85). -/
def State.fetch? (s : State) : Option Word :=
  match s.memRead? s.pc.toNat, s.memRead? (s.pc.toNat + 1) with
  | some hi, some lo => some (Word.ofBytes hi lo)
  | _, _ => none

/-- The fetch advance of phase 2: `pc <- (pc0 + 2) mod 65536` (R85). -/
def State.advance (s : State) : State := { s with pc := s.pc + 2 }

/-- A timer one nearer to zero, and zero at zero (R194). -/
def countDown (t : Byte) : Byte := if t = 0 then 0 else t - 1

/-- Phase 4: the timer tick, where one is due (R194, R195). -/
def State.tick (s : State) (due : Bool) : State :=
  { s with
    DT := if due then countDown s.DT else s.DT
    ST := if due then countDown s.ST else s.ST
    sndZero := s.sndZero || (due && s.ST == 1) }

/-- Phase 5: `key_prev <- keys` (R32). -/
def State.latch (s : State) (keys : BitVec 16) : State := { s with keyPrev := keys }

/-- What follows execution: after a fault nothing (R188), else phases 4 and 5, and the step inputs are used up. -/
def State.finish (s : State) : State :=
  if s.halted then s else ((s.tick s.input.tickDue).latch s.input.keys).nextInput

/-! ## The host between steps (R67, R197) -/

/-- Reset in any state (R200, R201): every field of the machine takes its value of R40; what the environment supplies, the
step inputs, is not the core's to reset (log 11). -/
def State.assertReset (s : State) : State := { State.reset with inputs := s.inputs, draws := s.draws }

/-- The program image at `LOAD_BASE`, cut at the end of memory (R72). -/
def State.loadImage (s : State) (img : List Byte) : State :=
  { s with mem := s.mem.writeList Config.loadBase (img.take (Config.memSize - Config.loadBase)) }

/-- The font at `FONT_BASE` (R202 step 2, R203). -/
def State.loadFont (s : State) : State := { s with mem := s.mem.writeList Config.fontBase Config.fontBytes }

/-- The launch state of an image (R204), with the font or without. -/
def State.launch (img : List Byte) (withFont : Bool) : State :=
  (if withFont then State.reset.loadFont else State.reset).loadImage img

/-- The host's `set_key(k, pressed)` on a sample of key levels: bit `k` takes the level, the last write wins (R35, R64). -/
def keySet (keys : BitVec 16) (k : RegNo) (pressed : Bool) : BitVec 16 :=
  if pressed then keys ||| BitVec.twoPow 16 k.val else keys &&& ~~~BitVec.twoPow 16 k.val

/-- The host fixes the inputs of the first coming step that has none fixed yet (R36, R67, log 1). -/
def State.supply (s : State) (i : StepIn) : State := { s with inputs := s.inputs ++ [i] }

/-- The host's `read_pixel(x, y)` (R63). -/
def State.readPixel (s : State) (x y : Nat) : Bool := s.fb.read x y

/-- Bytes stored where the next fetch reads, the core running. A word cannot be placed where `pc` is not fetchable (R184), and
no halted core fetches (R189): there `pc` goes back to `PC_RESET` and the record is cleared (log 12). -/
def State.placeAtPc (s : State) (bs : List Byte) : State :=
  let pc := if inMemory s.pc.toNat 2 then s.pc else Config.pcReset
  { s with pc := pc, fault := FaultRecord.clear, mem := s.mem.writeList pc.toNat (bs.take 2) }

end Sys2Proof.Machine
end

