-- ==== Sys2Proof/Machine/Operands.lean ====
section
/-! DEFINITION. The operand forms: zero-extended immediates (spec/30_encoding.md R83), the one addressing mode "index plus
constant offset" and its transfers (spec/43_index_mem.md), and the key number taken from a register
(spec/45_keypad.md). -/

namespace Sys2Proof.Machine

/-- `zext_16(NNN)` (R83). -/
def zextNNN (nnn : BitVec 12) : Word := nnn.setWidth 16

/-- `zext_16` of a byte (R83). -/
def zextByte (b : Byte) : Word := b.setWidth 16

/-- The effective address `I + k`, a natural number computed without wrap-around (R7). -/
def State.effAddr (s : State) (k : Nat) : Nat := s.I.toNat + k

/-- How many registers a block transfer moves: `X + 1` (R144). -/
def blockCount (x : RegNo) : Nat := x.val + 1

/-- `V0, V1, ..., VX` (R144). -/
def State.blockRegs (s : State) (x : RegNo) : List Byte := s.V.toList.take (blockCount x)

/-- `(I + X + 1) mod 65536`, where a block transfer leaves `I` (R144, R145). -/
def State.blockNextI (s : State) (x : RegNo) : Word := s.I + BitVec.ofNat 16 (blockCount x)

/-- The key number in `VX`, the whole register, or none above 15 (R160). -/
def State.keyNumber? (s : State) (x : RegNo) : Option RegNo :=
  if h : (s.reg x).toNat < 16 then some ⟨(s.reg x).toNat, h⟩ else none

/-- Hundreds, tens and units of a byte, one byte each (R143). -/
def bcdDigits (v : Byte) : List Byte :=
  [BitVec.ofNat 8 (v.toNat / 100), BitVec.ofNat 8 (v.toNat / 10 % 10), BitVec.ofNat 8 (v.toNat % 10)]

/-- The font address of a digit: `FONT_BASE + FONT_STRIDE * VX`, all eight bits of `VX` (R142). -/
def fontAddr (v : Byte) : Word := BitVec.ofNat 16 (Config.fontBase + Config.fontStride * v.toNat)

end Sys2Proof.Machine
end

