-- ==== Sys2Proof/Machine/Flags.lean ====
section
/-! DEFINITION. The arithmetic laws and the flag computations (spec/42_alu.md R132, R133; collision: spec/44_display.md
R151). -/

namespace Sys2Proof.Machine

/-- The exact sum `t` of two bytes, 0 to 510 (R132). -/
def exactSum (a b : Byte) : Nat := a.toNat + b.toNat

/-- The carry: 1 exactly when the exact sum is over 255 (R132). -/
def carryFlag (a b : Byte) : Byte := if exactSum a b > 255 then 1 else 0

/-- The sum as a register takes it: `t mod 256` (R132). -/
def wrapSum (a b : Byte) : Byte := BitVec.ofNat 8 (exactSum a b)

/-- The not-borrow of `a - b`: 1 exactly when `a >= b` (R132). -/
def notBorrowFlag (a b : Byte) : Byte := if a.toNat ≥ b.toNat then 1 else 0

/-- The difference as a register takes it: `(a - b) mod 256` (R132). -/
def wrapDiff (a b : Byte) : Byte := BitVec.ofInt 8 ((a.toNat : Int) - (b.toNat : Int))

/-- The bit a right shift moves out (R128). -/
def shiftedOutRight (v : Byte) : Byte := v &&& 0x01#8

/-- The bit a left shift moves out (R130). -/
def shiftedOutLeft (v : Byte) : Byte := (v >>> 7) &&& 0x01#8

/-- A flag bit as the byte `VF` takes (R21). -/
def flagByte (b : Bool) : Byte := if b then 1 else 0

/-- 8XY4, 8XY5, 8XY7: the result to `VX`, then the flag to `VF`, which wins where `X = 15` (R133). -/
def State.resultThenFlag (s : State) (x : RegNo) (result flag : Byte) : State := (s.setReg x result).setReg vf flag

/-- 8XY6, 8XYE: the flag to `VF` first, then `VX` shifted as it stands after that write (R133). -/
def State.flagThenShift (s : State) (x : RegNo) (flag : Byte) (shift : Byte → Byte) : State :=
  let s1 := s.setReg vf flag
  s1.setReg x (shift (s1.reg x))

end Sys2Proof.Machine
end

