-- ==== Sys2Proof/Machine/Alu.lean ====
section
/-! DEFINITION. Register load, arithmetic, logic, shifts, random (spec/42_alu.md). None can fault; none touches `pc`. -/

namespace Sys2Proof.Machine

/-- LD Vx, NN (R120). -/
def execLdImm (x : RegNo) (nn : Byte) (s : State) : Host.Outcome State Fault Refusal := .next (s.setReg x nn)

/-- ADD Vx, NN (R121): the carry is discarded. -/
def execAddImm (x : RegNo) (nn : Byte) (s : State) : Host.Outcome State Fault Refusal :=
  .next (s.setReg x (wrapSum (s.reg x) nn))

/-- LD Vx, Vy (R122). -/
def execLdReg (x y : RegNo) (s : State) : Host.Outcome State Fault Refusal := .next (s.setReg x (s.reg y))

/-- OR Vx, Vy (R123). -/
def execOrReg (x y : RegNo) (s : State) : Host.Outcome State Fault Refusal := .next (s.setReg x (s.reg x ||| s.reg y))

/-- AND Vx, Vy (R124). -/
def execAndReg (x y : RegNo) (s : State) : Host.Outcome State Fault Refusal := .next (s.setReg x (s.reg x &&& s.reg y))

/-- XOR Vx, Vy (R125). -/
def execXorReg (x y : RegNo) (s : State) : Host.Outcome State Fault Refusal := .next (s.setReg x (s.reg x ^^^ s.reg y))

/-- ADD Vx, Vy (R126): the carry is an output only. -/
def execAddReg (x y : RegNo) (s : State) : Host.Outcome State Fault Refusal :=
  .next (s.resultThenFlag x (wrapSum (s.reg x) (s.reg y)) (carryFlag (s.reg x) (s.reg y)))

/-- SUB Vx, Vy (R127). -/
def execSub (x y : RegNo) (s : State) : Host.Outcome State Fault Refusal :=
  .next (s.resultThenFlag x (wrapDiff (s.reg x) (s.reg y)) (notBorrowFlag (s.reg x) (s.reg y)))

/-- SHR Vx (R128): `VY` is neither read nor written. -/
def execShr (x _y : RegNo) (s : State) : Host.Outcome State Fault Refusal :=
  .next (s.flagThenShift x (shiftedOutRight (s.reg x)) (fun v => v >>> 1))

/-- SUBN Vx, Vy (R129): `VY - VX`. -/
def execSubn (x y : RegNo) (s : State) : Host.Outcome State Fault Refusal :=
  .next (s.resultThenFlag x (wrapDiff (s.reg y) (s.reg x)) (notBorrowFlag (s.reg y) (s.reg x)))

/-- SHL Vx (R130): `VY` is neither read nor written. -/
def execShl (x _y : RegNo) (s : State) : Host.Outcome State Fault Refusal :=
  .next (s.flagThenShift x (shiftedOutLeft (s.reg x)) (fun v => v <<< 1))

/-- RND Vx, NN (R131): the step's random byte, masked. -/
def execRnd (x : RegNo) (nn : Byte) (s : State) : Host.Outcome State Fault Refusal :=
  .next (s.setReg x (s.input.rnd &&& nn))

end Sys2Proof.Machine
end

