-- ==== Sys2Proof/Machine/Display.lean ====
section
/-! DEFINITION. Display instructions (spec/44_display.md): CLS, DRW, and the sprite drawing of R151, R152. -/

namespace Sys2Proof.Machine

/-- Column `col` of a sprite byte: bit `7 - col`, the most significant bit leftmost (R152). -/
def spriteBit (b : Byte) (col : Nat) : Bool := b.getLsbD (7 - col)

/-- One pixel of R151's inner loop: XOR the sprite bit in, and note a collision (old and bit both 1). The accumulator is the
picture and `coll`. -/
def drawPixel (vx y : Nat) (b : Byte) (acc : Framebuffer × Bool) (col : Nat) : Framebuffer × Bool :=
  let bit := spriteBit b col
  let old := acc.1.read (vx + col) y
  (acc.1.write (vx + col) y (old ^^ bit), acc.2 || (old && bit))

/-- One sprite row: columns 0 to 7, left to right (R151). -/
def drawRow (vx y : Nat) (b : Byte) (acc : Framebuffer × Bool) : Framebuffer × Bool :=
  (List.range 8).foldl (drawPixel vx y b) acc

/-- The sprite rows, top to bottom from `y` (R151). -/
def drawRows (vx y : Nat) : List Byte → Framebuffer × Bool → Framebuffer × Bool
  | [], acc => acc
  | b :: rest, acc => drawRows vx (y + 1) rest (drawRow vx y b acc)

/-- CLS (R150): `VF` is not written. -/
def execCls (s : State) : Host.Outcome State Fault Refusal := .next (s.display Framebuffer.cleared)

/-- DRW Vx, Vy, N (R151): `VX`, `VY` are read before `VF` is written; `VF` is written once, after all pixels. -/
def execDrw (x y : RegNo) (n : BitVec 4) (s : State) : Host.Outcome State Fault Refusal :=
  match s.loadBytes? (s.effAddr 0) n.toNat with
  | none => s.raise .dataFault (.drw x y n)
  | some rows =>
    let drawn := drawRows (s.reg x).toNat (s.reg y).toNat rows (s.fb, false)
    .next ((s.setReg vf (flagByte drawn.2)).display drawn.1)

end Sys2Proof.Machine
end

