-- ==== Sys2Proof/Machine/Flow.lean ====
section
/-! DEFINITION. Control transfer (spec/40_flow.md): SYS, RET, JP, CALL, JP V0. Each meaning is phase 3 of the step, so `pc`
already holds `pc0 + 2`. -/

namespace Sys2Proof.Machine

/-- SYS NNN (R100): its whole meaning is the DecodeError. -/
def execSys (nnn : BitVec 12) (s : State) : Host.Outcome State Fault Refusal := s.raise .decodeError (.sys nnn)

/-- RET (R101). -/
def execRet (s : State) : Host.Outcome State Fault Refusal :=
  match s.pop? with
  | none => s.raise .stackUnderflow .ret
  | some (a, t) => .next (t.setPc a)

/-- JP NNN (R102). -/
def execJp (nnn : BitVec 12) (s : State) : Host.Outcome State Fault Refusal := .next (s.setPc (zextNNN nnn))

/-- CALL NNN (R103). -/
def execCall (nnn : BitVec 12) (s : State) : Host.Outcome State Fault Refusal :=
  match s.push? s.pc with
  | none => s.raise .stackOverflow (.call nnn)
  | some t => .next (t.setPc (zextNNN nnn))

/-- JP V0, NNN (R104): the register is always V0, the sum is not cut to 12 bits. -/
def execJpV0 (nnn : BitVec 12) (s : State) : Host.Outcome State Fault Refusal :=
  .next (s.setPc (zextNNN nnn + zextByte (s.reg 0)))

end Sys2Proof.Machine
end

