-- ==== Sys2Proof/Machine/IndexMem.lean ====
section
/-! DEFINITION. Index register and memory transfers (spec/43_index_mem.md). The three that access memory check their whole
range first and raise DataFault with nothing written (R185, R188). -/

namespace Sys2Proof.Machine

/-- LD I, NNN (R140). -/
def execLdI (nnn : BitVec 12) (s : State) : Host.Outcome State Fault Refusal := .next (s.setI (zextNNN nnn))

/-- ADD I, Vx (R141): `VF` is not written. -/
def execAddI (x : RegNo) (s : State) : Host.Outcome State Fault Refusal := .next (s.setI (s.I + zextByte (s.reg x)))

/-- LD F, Vx (R142): reads no memory. -/
def execLdF (x : RegNo) (s : State) : Host.Outcome State Fault Refusal := .next (s.setI (fontAddr (s.reg x)))

/-- LD B, Vx (R143): `I` is unchanged. -/
def execLdB (x : RegNo) (s : State) : Host.Outcome State Fault Refusal :=
  match s.storeBytes? (s.effAddr 0) (bcdDigits (s.reg x)) with
  | none => s.raise .dataFault (.ldB x)
  | some t => .next t

/-- LD [I], Vx (R144): V0..VX stored upward from `I`, then `I <- I + X + 1`. -/
def execStoreRegs (x : RegNo) (s : State) : Host.Outcome State Fault Refusal :=
  match s.storeBytes? (s.effAddr 0) (s.blockRegs x) with
  | none => s.raise .dataFault (.storeRegs x)
  | some t => .next (t.setI (s.blockNextI x))

/-- LD Vx, [I] (R145): V0..VX loaded upward from `I`, then `I <- I + X + 1`. -/
def execLoadRegs (x : RegNo) (s : State) : Host.Outcome State Fault Refusal :=
  match s.loadBytes? (s.effAddr 0) (blockCount x) with
  | none => s.raise .dataFault (.loadRegs x)
  | some bs => .next ((s.setRegs bs).setI (s.blockNextI x))

end Sys2Proof.Machine
end

