-- ==== Sys2Proof/Machine/Keypad.lean ====
section
/-! DEFINITION. Keypad instructions (spec/45_keypad.md): SKP, SKNP, LD Vx, K. -/

namespace Sys2Proof.Machine

/-- SKP Vx (R160). -/
def execSkp (x : RegNo) (s : State) : Host.Outcome State Fault Refusal :=
  match s.keyNumber? x with
  | none => s.raise .keyIndexFault (.skp x)
  | some k => .next (s.skipIf (keyGet s.input.keys k))

/-- SKNP Vx (R161). -/
def execSknp (x : RegNo) (s : State) : Host.Outcome State Fault Refusal :=
  match s.keyNumber? x with
  | none => s.raise .keyIndexFault (.sknp x)
  | some k => .next (s.skipIf (!keyGet s.input.keys k))

/-- LD Vx, K (R162): with no key newly down, `pc` goes back by 2 and the instruction runs again; else the least such key. -/
def execLdVxK (x : RegNo) (s : State) : Host.Outcome State Fault Refusal :=
  .next (match lowestKey (s.input.keys &&& ~~~s.keyPrev) with
    | none => s.setPc (s.pc - 2)
    | some k => s.setReg x (BitVec.ofNat 8 k))

end Sys2Proof.Machine
end

