-- ==== Sys2Proof/Machine/Skip.lean ====
section
/-! DEFINITION. Conditional skips on register values (spec/41_skip.md): SE, SNE. None can fault. -/

namespace Sys2Proof.Machine

/-- SE Vx, NN (R110). -/
def execSeImm (x : RegNo) (nn : Byte) (s : State) : Host.Outcome State Fault Refusal := .next (s.skipIf (s.reg x == nn))

/-- SNE Vx, NN (R111). -/
def execSneImm (x : RegNo) (nn : Byte) (s : State) : Host.Outcome State Fault Refusal := .next (s.skipIf (s.reg x != nn))

/-- SE Vx, Vy (R112). -/
def execSeReg (x y : RegNo) (s : State) : Host.Outcome State Fault Refusal := .next (s.skipIf (s.reg x == s.reg y))

/-- SNE Vx, Vy (R113). -/
def execSneReg (x y : RegNo) (s : State) : Host.Outcome State Fault Refusal := .next (s.skipIf (s.reg x != s.reg y))

end Sys2Proof.Machine
end

