-- ==== Sys2Proof/Machine/Timers.lean ====
section
/-! DEFINITION. Timer instructions (spec/46_timers.md). The countdown itself is phase 4 of the step, after them. -/

namespace Sys2Proof.Machine

/-- LD Vx, DT (R170). -/
def execLdVxDt (x : RegNo) (s : State) : Host.Outcome State Fault Refusal := .next (s.setReg x s.DT)

/-- LD DT, Vx (R171). -/
def execLdDtVx (x : RegNo) (s : State) : Host.Outcome State Fault Refusal := .next (s.setDT (s.reg x))

/-- LD ST, Vx (R172): `snd_zero` is not raised. -/
def execLdStVx (x : RegNo) (s : State) : Host.Outcome State Fault Refusal := .next (s.setST (s.reg x))

end Sys2Proof.Machine
end

