-- ==== Sys2Proof/Machine/Step.lean ====
section
/-! DEFINITION. The one transition of the core (spec/30_encoding.md R84) and the placing of a table word where it fetches. -/

namespace Sys2Proof.Machine

/-- `step` (R84). Phase 0: a halted core does nothing (R189). Phase 1 clears the flags, phase 2 fetches (FetchFault: R184, word
recorded as 0x0000), decoding may raise DecodeError (R181), phase 3 is `exec`, and `State.finish` is phases 4 and 5. -/
def step (s : State) : Host.Outcome State Fault Refusal :=
  if s.halted then .next s
  else
    match s.fetch? with
    | none => .next (s.enterFault .fetchFault s.pc 0x0000#16)
    | some op =>
      match decodeWord op with
      | .error _ => .next (s.enterFault .decodeError s.pc op)
      | .ok i =>
        match exec i s.clearFlags.advance with
        | .next t => .next t.finish
        | .fault f => .fault f
        | .refused r => .refused r

/-- `s` with an instruction word, numbered as spec/opcode_table.json numbers it, where `step` fetches next (log 12). -/
def State.withFetchWord (s : State) (nbits w : Nat) : State := s.placeAtPc (tableWordBytes nbits w)

end Sys2Proof.Machine
end

