-- ==== Sys2Proof/Safety.lean ====
section
/-! DEFINITION. The terms the claims are stated in: the invariant of every reachable state (spec/10_state.md R39), what the
record of a halted core says of its state (spec/60_exceptions.md R180 to R188), the end of a run
(spec/70_reset_and_hazards.md R205), and the frame of an instruction, part by part. -/

namespace Sys2Proof.Machine

/-! ## Invariants -/

/-- The core is running: no cause is recorded (R31). -/
def State.Running (s : State) : Prop := s.fault.cause = .running

/-- The invariant of every reachable state: memory in its canonical form (addresses rising, below `MEM_SIZE`, no listed byte
that an unlisted address reads as); `sp` within the stack and a clear record while running (R39); a sound signal only with
`ST` at 0 (R195); no flag up on a halted core (R188). -/
def State.Inv (s : State) : Prop :=
  s.mem.wf ∧ s.sp.val ≤ Config.stackDepth ∧
  (s.fault.cause = .running → s.fault.pc = 0 ∧ s.fault.opcode = 0) ∧
  (s.sndZero = true → s.ST = 0) ∧
  (s.fault.cause ≠ .running → s.sndZero = false ∧ s.dispWritten = false)

/-- The word at `pc` as the fetch assembles it (R55): `mem[pc] * 256 + mem[pc + 1]`. -/
def State.wordAtPc (s : State) : Word :=
  BitVec.ofNat 16 ((s.mem.read s.pc.toNat).toNat * 256 + (s.mem.read (s.pc.toNat + 1)).toNat)

/-- Both bytes of the word at `pc` are in memory (R184). -/
def State.Fetchable (s : State) : Prop := s.pc.toNat + 1 < Config.memSize

/-- The highest address a memory instruction would touch through `I` is at or above `MEM_SIZE` (R185). -/
def State.DataOutOfRange (s : State) : Instr → Prop
  | .drw _ _ n => 0 < n.toNat ∧ Config.memSize ≤ s.I.toNat + n.toNat - 1
  | .ldB _ => Config.memSize ≤ s.I.toNat + 2
  | .storeRegs x | .loadRegs x => Config.memSize ≤ s.I.toNat + x.val
  | _ => False

/-- What the recorded cause says of the state it was recorded in (R180 to R186): the faulting instruction is the one at `pc`,
and the condition of its fault holds. -/
def State.CauseHolds (s : State) : Prop :=
  match s.fault.cause with
  | .running => True
  | .fetchFault => ¬ s.Fetchable
  | .decodeError =>
    s.Fetchable ∧ ((∃ e, decodeWord s.wordAtPc = .error e) ∨ ∃ nnn, decodeWord s.wordAtPc = .ok (.sys nnn))
  | .stackOverflow => s.Fetchable ∧ s.sp.val = Config.stackDepth ∧ ∃ nnn, decodeWord s.wordAtPc = .ok (.call nnn)
  | .stackUnderflow => s.Fetchable ∧ s.sp.val = 0 ∧ decodeWord s.wordAtPc = .ok .ret
  | .dataFault => s.Fetchable ∧ ∃ i, decodeWord s.wordAtPc = .ok i ∧ s.DataOutOfRange i
  | .keyIndexFault =>
    s.Fetchable ∧ ∃ x, 15 < (s.reg x).toNat ∧
      (decodeWord s.wordAtPc = .ok (.skp x) ∨ decodeWord s.wordAtPc = .ok (.sknp x))

/-- The fault record of a halted core is true of its state: it names the instruction at `pc` (R188), records its word, 0x0000
for a FetchFault (R180), and its cause holds. -/
def State.RecordTrue (s : State) : Prop :=
  s.fault.cause ≠ .running →
    s.fault.pc = s.pc ∧ s.fault.opcode = (if s.fault.cause = .fetchFault then 0x0000#16 else s.wordAtPc) ∧ s.CauseHolds

/-- A run has ended at address `a` (R205): running, `pc = a`, and the instruction there is `JP a`, a jump to itself. -/
def State.EndedAt (s : State) (a : Word) : Prop :=
  s.fault.cause = .running ∧ s.pc = a ∧ a.toNat + 1 < Config.memSize ∧ a.toNat ≤ 0xFFF ∧
  (s.mem.read a.toNat).toNat = 0x10 + a.toNat / 256 ∧ (s.mem.read (a.toNat + 1)).toNat = a.toNat % 256

/-! ## What the rules expect of a step -/

/-- The fault an instruction raises in a state, if any (R180, R187): the execute-phase fault of its rule. -/
def expectedCause (i : Instr) (s : State) : Cause :=
  match i with
  | .sys _ => .decodeError
  | .call _ => if s.sp.val = 16 then .stackOverflow else .running
  | .ret => if s.sp.val = 0 then .stackUnderflow else .running
  | .drw _ _ n => if 0 < n.toNat ∧ 4096 ≤ s.I.toNat + n.toNat - 1 then .dataFault else .running
  | .ldB _ => if 4096 ≤ s.I.toNat + 2 then .dataFault else .running
  | .storeRegs x | .loadRegs x => if 4096 ≤ s.I.toNat + x.val then .dataFault else .running
  | .skp x | .sknp x => if 15 < (s.reg x).toNat then .keyIndexFault else .running
  | _ => .running

/-- `DT` as the tick of a step finds it: what the instruction left (R170, R171). -/
def delayBeforeTick (i : Instr) (s : State) : Byte :=
  match i with
  | .ldDtVx x => s.reg x
  | _ => s.DT

/-- `ST` as the tick of a step finds it: what the instruction left (R172). -/
def soundBeforeTick (i : Instr) (s : State) : Byte :=
  match i with
  | .ldStVx x => s.reg x
  | _ => s.ST

/-- A state with every field of the machine at its reset value (the table of R40). -/
def IsResetTable (s : State) : Prop :=
  (∀ r, s.reg r = 0) ∧ s.I = 0 ∧ s.pc = 0x0200#16 ∧ (∀ (k : Nat) (h : k < 16), s.stack[k] = 0) ∧ s.sp = 0 ∧ s.DT = 0 ∧
  s.ST = 0 ∧ s.sndZero = false ∧ s.dispWritten = false ∧ s.fault.cause.code = 0 ∧ s.fault.pc = 0 ∧ s.fault.opcode = 0 ∧
  s.keyPrev = 0 ∧ (∀ a, s.mem.read a = 0) ∧ ∀ x y, s.readPixel x y = false

/-- The sprite bit that a DRW of `n` rows at `(vx, vy)` puts on the screen pixel `(px, py)`, `px < 64`, `py < 32`: column and row are
the distances from the start on the wrapped screen, and the most significant bit is column 0 (R151, R152, R62). -/
def spriteOn (s : State) (vx vy n px py : Nat) : Bool :=
  let col := (px + 64 - vx % 64) % 64
  let row := (py + 32 - vy % 32) % 32
  decide (col < 8) && decide (row < n) && (s.mem.read (s.I.toNat + row)).getLsbD (7 - col)

/-- The six instructions that write `VF` as a flag (R21). -/
def writesFlag : Instr → Bool
  | .addReg _ _ | .sub _ _ | .shr _ _ | .subn _ _ | .shl _ _ | .drw _ _ _ => true
  | _ => false

/-- The `X` field of an instruction whose destination is `VX`, or, for LD Vx, [I], its last destination. -/
def destField : Instr → Option RegNo
  | .ldImm x _ | .addImm x _ | .ldReg x _ | .orReg x _ | .andReg x _ | .xorReg x _ | .addReg x _ | .sub x _ | .shr x _
  | .subn x _ | .shl x _ | .rnd x _ | .ldVxDt x | .ldVxK x | .loadRegs x => some x
  | _ => none

/-! ## Frames -/

/-- The parts of the state other than the general registers. -/
inductive Part where
  | index | pc | stack | sp | delay | sound | sndZero | dispWritten | fault | keyPrev | memory | picture | inputs
  deriving DecidableEq, Repr

/-- A part of the state is the same before and after; memory by the read of every byte, the picture by the read of every
pixel. -/
def Part.Kept (s t : State) : Part → Prop
  | .index => t.I = s.I
  | .pc => t.pc = s.pc
  | .stack => t.stack = s.stack
  | .sp => t.sp = s.sp
  | .delay => t.DT = s.DT
  | .sound => t.ST = s.ST
  | .sndZero => t.sndZero = s.sndZero
  | .dispWritten => t.dispWritten = s.dispWritten
  | .fault => t.fault = s.fault
  | .keyPrev => t.keyPrev = s.keyPrev
  | .memory => ∀ a, t.mem.read a = s.mem.read a
  | .picture => ∀ x y, t.readPixel x y = s.readPixel x y
  | .inputs => t.inputs = s.inputs ∧ t.draws = s.draws

/-- Every register but those listed, and every part but those listed, is the same before and after. -/
def KeepsAllBut (regs : List RegNo) (parts : List Part) (s t : State) : Prop :=
  (∀ r, r ∉ regs → t.reg r = s.reg r) ∧ ∀ p, p ∉ parts → Part.Kept s t p

/-- From `s`, in the execute phase of the instruction word `op` (`pc` holds `pc0 + 2`), to fault entry with cause `c` (R188): the
record written, `pc` back at `pc0`, both flags 0, and everything else as it was. -/
def TakesFault (c : Cause) (op : Word) (s t : State) : Prop :=
  t.fault = { cause := c, pc := s.pc - 2, opcode := op } ∧ t.pc = s.pc - 2 ∧ t.sndZero = false ∧ t.dispWritten = false ∧
  KeepsAllBut [] [.pc, .fault, .sndZero, .dispWritten] s t

end Sys2Proof.Machine
end

