-- ==== Sys2Proof/Certificates/Slice0/Obligations.lean ====
section
/-! DEFINITION. The statements for the provers. Each docstring names the rules of spec/ the statement formalises; all the data
beside it (tier, kind, basis, cites) stands in OBLIGATIONS.json. Statements about the execute phase (`exec`) speak of a state
in which the fetch advance has been made: `pc` holds `pc0 + 2` (spec/30_encoding.md R85). -/

open Sys2Proof Sys2Proof.Machine

/-! ## Encoding (spec/30_encoding.md) -/

/-- Every well-formed instruction is decoded from its own word, whatever its operands (R81, R82, R87). -/
def Obligations.DecodeInvertsEncode : Prop := ∀ i : Instr, i.WellFormed → decodeWord (encode i) = .ok i

/-- A word that decodes is the word of the instruction it decodes to, which is well-formed (R81, R87). That no bit is dropped and
that no two words give one term is, for SHR and SHL, the MODEL's choice and no rule: their terms keep the `Y` field, which the
hardware ignores, all 16 values of it decoding to the same operation (log 17; R89). -/
def Obligations.EncodeInvertsDecode : Prop :=
  ∀ (op : Word) (i : Instr), decodeWord op = .ok i → encode i = op ∧ i.WellFormed

/-- The decoder takes the first row of the 35-row table with `op & mask = match`; CLS and RET stand before SYS, and no other two
rows match one word (R87). -/
def Obligations.DecoderTakesFirstMatchingRow : Prop :=
  opcodeTable.length = 35 ∧
  (∀ op : Word, (decodeWord op).toOption = firstMatch op opcodeTable) ∧
  ∀ (op : Word) (j k : Nat) (r q : OpcodeRow), opcodeTable[j]? = some r → opcodeTable[k]? = some q → j < k →
    op &&& r.mask = r.bits → op &&& q.mask = q.bits →
    (r.bits = 0x00E0#16 ∨ r.bits = 0x00EE#16) ∧ q.mask = 0xF000#16 ∧ q.bits = 0x0000#16

/-- In family 0, 0x00E0 is CLS, 0x00EE is RET, and every other word is SYS (R93). -/
def Obligations.FamilyZeroPriority : Prop :=
  decodeWord 0x00E0#16 = .ok .cls ∧ decodeWord 0x00EE#16 = .ok .ret ∧
  (∀ op : Word, op.toNat < 0x1000 → op ≠ 0x00E0#16 → op ≠ 0x00EE#16 → decodeWord op = .ok (.sys (op.setWidth 12))) ∧
  ∀ op : Word, (decodeWord op).toOption = firstMatch op opcodeTable

/-- The words that are no instruction are exactly those of the five families of R88's table. -/
def Obligations.IllegalWordsOfFiveFamilies : Prop :=
  ∀ op : Word, (∃ e, decodeWord op = .error e) ↔
    (op.toNat / 4096 = 0x5 ∧ op.toNat % 16 ≠ 0) ∨
    (op.toNat / 4096 = 0x8 ∧ op.toNat % 16 ∈ [0x8, 0x9, 0xA, 0xB, 0xC, 0xD, 0xF]) ∨
    (op.toNat / 4096 = 0x9 ∧ op.toNat % 16 ≠ 0) ∨
    (op.toNat / 4096 = 0xE ∧ op.toNat % 256 ∉ [0x9E, 0xA1]) ∨
    (op.toNat / 4096 = 0xF ∧ op.toNat % 256 ∉ [0x07, 0x0A, 0x15, 0x18, 0x1E, 0x29, 0x33, 0x55, 0x65])

/-- Words the spec writes out decode to the instructions it says they are (R87; spec/95_test_vectors.md). -/
def Obligations.WrittenWordsDecode : Prop :=
  decodeWord 0x6005#16 = .ok (.ldImm 0 0x05#8) ∧ decodeWord 0x7003#16 = .ok (.addImm 0 0x03#8) ∧
  decodeWord 0x00E0#16 = .ok .cls ∧ decodeWord 0x220A#16 = .ok (.call 0x20A#12) ∧
  decodeWord 0x8AB4#16 = .ok (.addReg 0xA 0xB) ∧ decodeWord 0xD012#16 = .ok (.drw 0 1 0x2#4) ∧
  decodeWord 0xE59E#16 = .ok (.skp 5) ∧ decodeWord 0xF265#16 = .ok (.loadRegs 2) ∧
  decodeWord 0x8AB8#16 = .error .family8 ∧ decode [0x60#8, 0x05#8] = .ok (.ldImm 0 0x05#8, [])

/-! ## The step (spec/30_encoding.md R84, R85; spec/60_exceptions.md) -/

/-- The fetch assembles the two bytes at `pc`, the high byte first, wherever both are in memory, odd addresses included; else
there is no word (R55, R85). -/
def Obligations.FetchIsBigEndian : Prop :=
  ∀ s : State,
    (s.pc.toNat + 1 < 4096 →
      s.fetch? = some (BitVec.ofNat 16 ((s.mem.read s.pc.toNat).toNat * 256 + (s.mem.read (s.pc.toNat + 1)).toNat))) ∧
    (4096 ≤ s.pc.toNat + 1 → s.fetch? = none)

/-- When the bytes at `pc` decode to an instruction, a step of a running core is `exec` of it, on the state with the flags cleared
(phase 1) and `pc` advanced by 2 (phase 2); after it, unless it faulted, come the timer tick (phase 4) and the key latch (phase 5)
(R84, R85). The last of the equation, `nextInput`, is no phase of the spec but the MODEL's own: it moves the queue of step inputs,
or the count of free ones, on to the next step (log 1), and a step that faulted moves neither (log 3). -/
def Obligations.StepRunsDecodedInstruction : Prop :=
  ∀ (s : State) (i : Instr), s.fault.cause = .running → s.pc.toNat + 1 < 4096 → decodeWord s.wordAtPc = .ok i →
    step s =
      match exec i { s with sndZero := false, dispWritten := false, pc := s.pc + 2 } with
      | .next t =>
        .next (if t.fault.cause = .running then ((t.tick t.input.tickDue).latch t.input.keys).nextInput else t)
      | .fault f => .fault f
      | .refused r => .refused r

/-- While a cause is recorded, a step returns its input state unchanged, whatever the inputs (R189). -/
def Obligations.HaltedStepIsIdentity : Prop := ∀ s : State, s.fault.cause ≠ .running → step s = .next s

/-- Every state has a step, and every instruction completes in every state: the model has no stop
(spec/93_implementation_defined.md, "stuck"). -/
def Obligations.EveryStateHasNextState : Prop :=
  (∀ s : State, ∃ t, step s = .next t) ∧ ∀ (i : Instr) (s : State), ∃ t, exec i s = .next t

/-- A running core whose `pc` or `pc + 1` is at or above `MEM_SIZE` takes a FetchFault, code 4, with `pc` and 0x0000 recorded, and
a running core takes one nowhere else (R184). -/
def Obligations.FetchFaultExactlyOutsideMemory : Prop :=
  Cause.fetchFault.code = 4 ∧
  ∀ s t : State, s.fault.cause = .running → step s = .next t →
    (4096 ≤ s.pc.toNat + 1 →
      t = { s with sndZero := false, dispWritten := false, fault := { cause := .fetchFault, pc := s.pc, opcode := 0x0000#16 } }) ∧
    (s.pc.toNat + 1 < 4096 → t.fault.cause ≠ .fetchFault)

/-- A running core takes a DecodeError, code 1, exactly when the word at `pc` is illegal or a SYS word, with the word and its
address recorded (R181). -/
def Obligations.DecodeErrorExactlyAtIllegalOrSys : Prop :=
  Cause.decodeError.code = 1 ∧
  ∀ s t : State, s.fault.cause = .running → step s = .next t →
    (t.fault.cause = .decodeError ↔
      s.pc.toNat + 1 < 4096 ∧
        ((∃ e, decodeWord s.wordAtPc = .error e) ∨ ∃ nnn, decodeWord s.wordAtPc = .ok (.sys nnn))) ∧
    (t.fault.cause = .decodeError → t.fault = { cause := .decodeError, pc := s.pc, opcode := s.wordAtPc })

/-- A faulting step leaves the state before it, but for the two flags, which are 0, and the record: the address of the faulting
instruction and its word, 0x0000 where none was fetched (R188). -/
def Obligations.FaultEntryIsAllOrNothing : Prop :=
  ∀ s t : State, s.fault.cause = .running → step s = .next t → t.fault.cause ≠ .running →
    t = { s with
      sndZero := false
      dispWritten := false
      fault :=
        { cause := t.fault.cause
          pc := s.pc
          opcode := if s.pc.toNat + 1 < 4096 then s.wordAtPc else 0x0000#16 } }

/-- Which fault a step of a running core takes, if any, with the cause codes, and with `pc` and the word recorded (R180), in the
order of the phases of R84: FetchFault first, then DecodeError, then the one execute-phase fault of the instruction. That order as
a law is R187's, which the spec marks as derived; of R187's count the model follows the list, so that 26 instructions raise no
execute-phase fault where its prose says 25 (log 18). -/
def Obligations.OneFaultByPhaseOrder : Prop :=
  (∀ s t : State, s.fault.cause = .running → step s = .next t →
    t.fault.cause =
      (if 4096 ≤ s.pc.toNat + 1 then .fetchFault
       else match decodeWord s.wordAtPc with
         | .error _ => .decodeError
         | .ok i => expectedCause i s) ∧
    (t.fault.cause ≠ .running →
      t.fault.pc = s.pc ∧ t.fault.opcode = if s.pc.toNat + 1 < 4096 then s.wordAtPc else 0x0000#16)) ∧
  [Cause.running, .decodeError, .stackOverflow, .stackUnderflow, .fetchFault, .dataFault, .keyIndexFault].map Cause.code =
    [0, 1, 2, 3, 4, 5, 6]

/-- `disp_written` is 1 after a step of a running core exactly when the step executed CLS or DRW without a fault (R30). -/
def Obligations.DispWrittenExactlyAfterClsOrDrw : Prop :=
  ∀ s t : State, s.fault.cause = .running → step s = .next t →
    (t.dispWritten = true ↔
      t.fault.cause = .running ∧ s.pc.toNat + 1 < 4096 ∧
        (decodeWord s.wordAtPc = .ok .cls ∨ ∃ x y n, decodeWord s.wordAtPc = .ok (.drw x y n)))

/-- In a step that does not fault, each timer goes down by one if a tick is due and it is not 0, after the instruction, and
otherwise stays; `snd_zero` is set when the tick takes `ST` to 0, and not otherwise; at most one decrement a step (R194). -/
def Obligations.TickCountsTimersDown : Prop :=
  ∀ (s t : State) (i : Instr), s.fault.cause = .running → s.pc.toNat + 1 < 4096 → decodeWord s.wordAtPc = .ok i →
    step s = .next t → t.fault.cause = .running →
    t.DT.toNat = (if s.input.tickDue then (delayBeforeTick i s).toNat - 1 else (delayBeforeTick i s).toNat) ∧
    t.ST.toNat = (if s.input.tickDue then (soundBeforeTick i s).toNat - 1 else (soundBeforeTick i s).toNat) ∧
    (t.sndZero = true ↔ s.input.tickDue = true ∧ 0 < (soundBeforeTick i s).toNat ∧ t.ST = 0)

/-- `snd_zero` is 1 after a step of a running core exactly when its tick took `ST` from 1 to 0; it is 0 after every other step of
a running core (R195). -/
def Obligations.SoundSignalExactlyOnOneToZero : Prop :=
  ∀ s t : State, s.fault.cause = .running → step s = .next t →
    (t.sndZero = true ↔
      t.fault.cause = .running ∧ s.input.tickDue = true ∧ s.pc.toNat + 1 < 4096 ∧
        ∃ i, decodeWord s.wordAtPc = .ok i ∧ soundBeforeTick i s = 1 ∧ t.ST = 0)

/-- `key_prev` takes the keys of every step of a running core that does not fault, and keeps its value in one that does
(R32, R84 phase 5, R188). -/
def Obligations.KeyLatchFollowsCompletedSteps : Prop :=
  ∀ s t : State, s.fault.cause = .running → step s = .next t →
    t.keyPrev = if t.fault.cause = .running then s.input.keys else s.keyPrev

/-! ## Invariants, reset, launch, end of a run -/

/-- The invariant and the truth of the fault record hold at reset (R39, R40). -/
def Obligations.ResetMeetsInvariants : Prop := State.reset.Inv ∧ State.reset.RecordTrue

/-- Every step keeps the invariant: memory canonical and below `MEM_SIZE`, `sp` within the stack, a clear record while running, a
sound signal only at `ST = 0`, no flag up on a halted core (R39, R33, R188, R195). -/
def Obligations.StepKeepsInvariant : Prop := ∀ s t : State, s.Inv → step s = .next t → t.Inv

/-- Every step keeps the fault record true: a halted core's record names the instruction at `pc`, holds its word (0x0000 for a
FetchFault), and the condition of its cause holds of the state (R180 to R188). -/
def Obligations.StepKeepsRecordTrue : Prop := ∀ s t : State, s.RecordTrue → step s = .next t → t.RecordTrue

/-- After reset every field has the value of the table, and reset of any state, running or halted, gives the same (R40, R201). The
values but those of `pc` and memory are the spec's own decision D11, which a conservative model may weaken (log 9). -/
def Obligations.ResetGivesTheTable : Prop := IsResetTable State.reset ∧ ∀ s : State, IsResetTable s.assertReset

/-- The image is at 0x200 upward, byte for byte, as far as memory goes; every other byte, and the rest of the state, is as
before (R72). -/
def Obligations.ImageLoadedAndCut : Prop :=
  ∀ (s : State) (img : List Byte),
    (∀ (k : Nat) (h : k < img.length), 0x200 + k < 4096 → (s.loadImage img).mem.read (0x200 + k) = img[k]) ∧
    (∀ a, a < 0x200 ∨ 0x200 + img.length ≤ a ∨ 4096 ≤ a → (s.loadImage img).mem.read a = s.mem.read a) ∧
    KeepsAllBut [] [.memory] s (s.loadImage img)

/-- In a launch state `pc = 0x200`, `sp = 0`, no fault, timers 0, the picture clear; memory holds the font if loaded, the image
cut at `MEM_SIZE`, and zero elsewhere (R204). -/
def Obligations.LaunchStateHoldsFontAndImage : Prop :=
  ∀ (img : List Byte) (withFont : Bool),
    let s := State.launch img withFont
    s.pc = 0x200 ∧ s.sp = 0 ∧ s.fault.cause = .running ∧ s.DT = 0 ∧ s.ST = 0 ∧ (∀ x y, s.readPixel x y = false) ∧
    KeepsAllBut [] [.memory] State.reset s ∧
    ∀ a, s.mem.read a =
      if 0x200 ≤ a ∧ a < 4096 ∧ a - 0x200 < img.length then img.getD (a - 0x200) 0
      else if withFont = true ∧ a < 80 then Config.fontBytes.getD a 0
      else 0

/-- From a state in which the run has ended at `a`, any number of steps ends in such a state with `V`, `I`, `pc`, the stack, memory
and the picture unchanged, and `disp_written` 0 after the first; in each of those steps the timers, the sound signal and the key
latch follow the inputs (R205). -/
def Obligations.EndedRunStaysEnded : Prop :=
  (∀ (k : Nat) (s : State) (a : Word), s.EndedAt a →
    ∃ t, Host.Core.run core k s = .next t ∧ t.EndedAt a ∧ t.V = s.V ∧ t.I = s.I ∧ t.pc = s.pc ∧ t.stack = s.stack ∧
      t.sp = s.sp ∧ t.mem = s.mem ∧ t.fb = s.fb ∧ (0 < k → t.dispWritten = false)) ∧
  ∀ (s : State) (a : Word), s.EndedAt a →
    ∃ t, step s = .next t ∧ t.keyPrev = s.input.keys ∧
      t.DT.toNat = (if s.input.tickDue then s.DT.toNat - 1 else s.DT.toNat) ∧
      t.ST.toNat = (if s.input.tickDue then s.ST.toNat - 1 else s.ST.toNat) ∧
      (t.sndZero = true ↔ s.input.tickDue = true ∧ s.ST = 1)

/-- For any state, with a word placed by `withFetchWord` the core runs and the next step fetches that word, which the decoder reads
as `decodeTableWord` does (R55, R85). The placing is the MODEL's own operation (log 12). -/
def Obligations.PlacedWordIsFetched : Prop :=
  ∀ (s : State) (op : Word),
    (s.withFetchWord 16 op.toNat).fault.cause = .running ∧ (s.withFetchWord 16 op.toNat).fetch? = some op ∧
    decodeTableWord 16 op.toNat = (decodeWord op).toOption

/-! ## Framebuffer (spec/20_memory.md) -/

/-- Coordinates wrap: a pixel access anywhere is the access at the coordinates modulo 64 and 32, a written pixel is the linear
element `x mod 64 + 64 * (y mod 32)`, a cleared framebuffer is off everywhere (R62). -/
def Obligations.FramebufferWraps : Prop :=
  (∀ (f : Framebuffer) (x y : Nat), f.read x y = f.element (x % 64 + 64 * (y % 32))) ∧
  (∀ (f : Framebuffer) (x y : Nat) (b : Bool), f.write x y b = f.write (x % 64) (y % 32) b) ∧
  (∀ (f : Framebuffer) (x y k : Nat) (b : Bool), k < 2048 →
    (f.write x y b).element k = if k = x % 64 + 64 * (y % 32) then b else f.element k) ∧
  ∀ k, Framebuffer.cleared.element k = false

/-! ## Control transfer (spec/40_flow.md) -/

/-- SYS: the word 0NNN raises DecodeError and does nothing else (R100). -/
def Obligations.SysRaisesDecodeError : Prop :=
  ∀ (nnn : BitVec 12) (s : State),
    (nnn ≠ 0x0E0#12 → nnn ≠ 0x0EE#12 → decodeWord (0x0#4 ++ nnn) = .ok (.sys nnn)) ∧
    ∃ t, exec (.sys nnn) s = .next t ∧ TakesFault .decodeError (0x0#4 ++ nnn) s t

/-- RET: with a call active, `sp` goes down and `pc` takes the entry there, which keeps its value; with none, StackUnderflow; a RET
executed right after a CALL that did not fault restores `pc` to the instruction after the CALL, and `sp` (R101). -/
def Obligations.RetPopsReturnAddress : Prop :=
  decodeWord 0x00EE#16 = .ok .ret ∧
  (∀ (s : State) (k : Fin 16), s.sp.val = k.val + 1 →
    ∃ t, exec .ret s = .next t ∧ t.sp.val = k.val ∧ t.pc = s.stack[k.val] ∧ KeepsAllBut [] [.pc, .sp] s t) ∧
  (∀ s : State, s.sp.val = 0 → ∃ t, exec .ret s = .next t ∧ TakesFault .stackUnderflow 0x00EE#16 s t) ∧
  ∀ (nnn : BitVec 12) (s t : State), s.sp.val < 16 → exec (.call nnn) s = .next t →
    ∃ u, exec .ret t.advance = .next u ∧ u.pc = s.pc ∧ u.sp = s.sp ∧ KeepsAllBut [] [.stack] s u

/-- JP NNN and JP V0, NNN set `pc` to the absolute target, the second to the 16-bit sum with V0, and nothing else (R102, R104). -/
def Obligations.JumpsSetPc : Prop :=
  ∀ (nnn : BitVec 12) (s : State),
    decodeWord (0x1#4 ++ nnn) = .ok (.jp nnn) ∧ decodeWord (0xB#4 ++ nnn) = .ok (.jpV0 nnn) ∧
    (∃ t, exec (.jp nnn) s = .next t ∧ t.pc.toNat = nnn.toNat ∧ KeepsAllBut [] [.pc] s t) ∧
    ∃ t, exec (.jpV0 nnn) s = .next t ∧ t.pc.toNat = (nnn.toNat + (s.reg 0).toNat) % 65536 ∧ KeepsAllBut [] [.pc] s t

/-- CALL NNN: with fewer than 16 calls active, `pc` (the address after the CALL) is written to `stack[sp]`, `sp` goes up and `pc` is
NNN; with 16 active, StackOverflow and nothing written (R103). -/
def Obligations.CallPushesReturnAddress : Prop :=
  ∀ (nnn : BitVec 12) (s : State),
    decodeWord (0x2#4 ++ nnn) = .ok (.call nnn) ∧
    (∀ k : Fin 16, s.sp.val = k.val →
      ∃ t, exec (.call nnn) s = .next t ∧ t.stack[k.val] = s.pc ∧
        (∀ (j : Nat) (h : j < 16), j ≠ k.val → t.stack[j] = s.stack[j]) ∧ t.sp.val = k.val + 1 ∧
        t.pc.toNat = nnn.toNat ∧ KeepsAllBut [] [.pc, .sp, .stack] s t) ∧
    (s.sp.val = 16 → ∃ t, exec (.call nnn) s = .next t ∧ TakesFault .stackOverflow (0x2#4 ++ nnn) s t)

/-! ## Conditional skips (spec/41_skip.md) -/

/-- The four register skips: `pc + 2` exactly when the condition holds, and nothing else changes; 5XYN and 9XYN with `N` other than 0
are no instruction (R110, R111, R112, R113). -/
def Obligations.SkipsOnRegisterValues : Prop :=
  ∀ (x y : RegNo) (nn : Byte) (s : State),
    decodeWord (0x3#4 ++ nibble x ++ nn) = .ok (.seImm x nn) ∧
    decodeWord (0x4#4 ++ nibble x ++ nn) = .ok (.sneImm x nn) ∧
    decodeWord (0x5#4 ++ nibble x ++ nibble y ++ 0x0#4) = .ok (.seReg x y) ∧
    decodeWord (0x9#4 ++ nibble x ++ nibble y ++ 0x0#4) = .ok (.sneReg x y) ∧
    (∀ n : BitVec 4, n ≠ 0 → (∃ e, decodeWord (0x5#4 ++ nibble x ++ nibble y ++ n) = .error e) ∧
      ∃ e, decodeWord (0x9#4 ++ nibble x ++ nibble y ++ n) = .error e) ∧
    (∃ t, exec (.seImm x nn) s = .next t ∧ t.pc = (if s.reg x = nn then s.pc + 2 else s.pc) ∧ KeepsAllBut [] [.pc] s t) ∧
    (∃ t, exec (.sneImm x nn) s = .next t ∧ t.pc = (if s.reg x = nn then s.pc else s.pc + 2) ∧ KeepsAllBut [] [.pc] s t) ∧
    (∃ t, exec (.seReg x y) s = .next t ∧ t.pc = (if s.reg x = s.reg y then s.pc + 2 else s.pc) ∧
      KeepsAllBut [] [.pc] s t) ∧
    ∃ t, exec (.sneReg x y) s = .next t ∧ t.pc = (if s.reg x = s.reg y then s.pc else s.pc + 2) ∧ KeepsAllBut [] [.pc] s t

/-! ## Registers (spec/42_alu.md) -/

/-- LD Vx, NN and LD Vx, Vy: `VX` takes the immediate, or `VY`; nothing else changes (R120, R122). -/
def Obligations.LoadsAndMoves : Prop :=
  ∀ (x y : RegNo) (nn : Byte) (s : State),
    decodeWord (0x6#4 ++ nibble x ++ nn) = .ok (.ldImm x nn) ∧
    decodeWord (0x8#4 ++ nibble x ++ nibble y ++ 0x0#4) = .ok (.ldReg x y) ∧
    (∃ t, exec (.ldImm x nn) s = .next t ∧ t.reg x = nn ∧ KeepsAllBut [x] [] s t) ∧
    ∃ t, exec (.ldReg x y) s = .next t ∧ t.reg x = s.reg y ∧ KeepsAllBut [x] [] s t

/-- ADD Vx, NN: the sum modulo 256; no other register, `VF` included, changes (R121). -/
def Obligations.AddImmediateWrapsWithoutFlag : Prop :=
  ∀ (x : RegNo) (nn : Byte) (s : State),
    decodeWord (0x7#4 ++ nibble x ++ nn) = .ok (.addImm x nn) ∧
    ∃ t, exec (.addImm x nn) s = .next t ∧ (t.reg x).toNat = ((s.reg x).toNat + nn.toNat) % 256 ∧ KeepsAllBut [x] [] s t

/-- OR, AND, XOR: bit by bit; no other register, `VF` included, changes (R123, R124, R125). -/
def Obligations.LogicIsBitwiseWithoutFlag : Prop :=
  ∀ (x y : RegNo) (s : State),
    decodeWord (0x8#4 ++ nibble x ++ nibble y ++ 0x1#4) = .ok (.orReg x y) ∧
    decodeWord (0x8#4 ++ nibble x ++ nibble y ++ 0x2#4) = .ok (.andReg x y) ∧
    decodeWord (0x8#4 ++ nibble x ++ nibble y ++ 0x3#4) = .ok (.xorReg x y) ∧
    (∃ t, exec (.orReg x y) s = .next t ∧
      (∀ k, (t.reg x).getLsbD k = ((s.reg x).getLsbD k || (s.reg y).getLsbD k)) ∧ KeepsAllBut [x] [] s t) ∧
    (∃ t, exec (.andReg x y) s = .next t ∧
      (∀ k, (t.reg x).getLsbD k = ((s.reg x).getLsbD k && (s.reg y).getLsbD k)) ∧ KeepsAllBut [x] [] s t) ∧
    ∃ t, exec (.xorReg x y) s = .next t ∧
      (∀ k, (t.reg x).getLsbD k = ((s.reg x).getLsbD k ^^ (s.reg y).getLsbD k)) ∧ KeepsAllBut [x] [] s t

/-- ADD Vx, Vy: the sum modulo 256 to `VX`, the carry (exact sum over 255) to `VF`, last; where `X = 15` the carry is what `VF`
holds (R126). -/
def Obligations.AddSetsCarryLast : Prop :=
  ∀ (x y : RegNo) (s : State),
    decodeWord (0x8#4 ++ nibble x ++ nibble y ++ 0x4#4) = .ok (.addReg x y) ∧
    ∃ t, exec (.addReg x y) s = .next t ∧
      t.reg 15 = (if (s.reg x).toNat + (s.reg y).toNat > 255 then 1 else 0) ∧
      (x ≠ 15 → (t.reg x).toNat = ((s.reg x).toNat + (s.reg y).toNat) % 256) ∧ KeepsAllBut [x, 15] [] s t

/-- SUB and SUBN: the difference modulo 256 to `VX` (`VX - VY`, `VY - VX`), the not-borrow to `VF`, last; where `X = 15` the flag
is what `VF` holds (R127, R129). -/
def Obligations.SubtractionsSetNotBorrowLast : Prop :=
  ∀ (x y : RegNo) (s : State),
    decodeWord (0x8#4 ++ nibble x ++ nibble y ++ 0x5#4) = .ok (.sub x y) ∧
    decodeWord (0x8#4 ++ nibble x ++ nibble y ++ 0x7#4) = .ok (.subn x y) ∧
    (∃ t, exec (.sub x y) s = .next t ∧ t.reg 15 = (if (s.reg x).toNat ≥ (s.reg y).toNat then 1 else 0) ∧
      (x ≠ 15 → (t.reg x).toNat = ((s.reg x).toNat + 256 - (s.reg y).toNat) % 256) ∧ KeepsAllBut [x, 15] [] s t) ∧
    ∃ t, exec (.subn x y) s = .next t ∧ t.reg 15 = (if (s.reg y).toNat ≥ (s.reg x).toNat then 1 else 0) ∧
      (x ≠ 15 → (t.reg x).toNat = ((s.reg y).toNat + 256 - (s.reg x).toNat) % 256) ∧ KeepsAllBut [x, 15] [] s t

/-- SHR and SHL: `VX` is shifted by one, `VF` takes the bit moved out, `VY` plays no part; where `X = 15` the flag just written is
shifted, so `VF` ends 0 after SHR, and 2 or 0 after SHL (R128, R130). -/
def Obligations.ShiftsUseVxAndWriteFlagFirst : Prop :=
  ∀ (x y : RegNo) (s : State),
    decodeWord (0x8#4 ++ nibble x ++ nibble y ++ 0x6#4) = .ok (.shr x y) ∧
    decodeWord (0x8#4 ++ nibble x ++ nibble y ++ 0xE#4) = .ok (.shl x y) ∧
    (∃ t, exec (.shr x y) s = .next t ∧
      (x ≠ 15 → (t.reg x).toNat = (s.reg x).toNat / 2 ∧ (t.reg 15).toNat = (s.reg x).toNat % 2) ∧
      (x = 15 → t.reg 15 = 0) ∧ KeepsAllBut [x, 15] [] s t) ∧
    ∃ t, exec (.shl x y) s = .next t ∧
      (x ≠ 15 → (t.reg x).toNat = (s.reg x).toNat * 2 % 256 ∧ (t.reg 15).toNat = (s.reg x).toNat / 128) ∧
      (x = 15 → (t.reg 15).toNat = if (s.reg 15).toNat ≥ 128 then 2 else 0) ∧ KeepsAllBut [x, 15] [] s t

/-- What `VF` finally holds after the five flag-writing register operations, `X` other than 15 and `X = 15`, as one table; and with
`X` other than 15 the result in `VX` of the operands as they were before any write, whichever register `Y` is (R133). -/
def Obligations.FinalVfTable : Prop :=
  ∀ (x y : RegNo) (s : State),
    (∃ t, exec (.addReg x y) s = .next t ∧ (t.reg 15).toNat = ((s.reg x).toNat + (s.reg y).toNat) / 256 ∧
      (x ≠ 15 → t.reg x = s.reg x + s.reg y)) ∧
    (∃ t, exec (.sub x y) s = .next t ∧ t.reg 15 = (if (s.reg y).toNat ≤ (s.reg x).toNat then 1 else 0) ∧
      (x ≠ 15 → t.reg x = s.reg x - s.reg y)) ∧
    (∃ t, exec (.subn x y) s = .next t ∧ t.reg 15 = (if (s.reg x).toNat ≤ (s.reg y).toNat then 1 else 0) ∧
      (x ≠ 15 → t.reg x = s.reg y - s.reg x)) ∧
    (∃ t, exec (.shr x y) s = .next t ∧
      t.reg 15 = (if x = 15 then 0 else if (s.reg x).getLsbD 0 then 1 else 0) ∧ (x ≠ 15 → t.reg x = s.reg x >>> 1)) ∧
    ∃ t, exec (.shl x y) s = .next t ∧
      t.reg 15 = (if x = 15 then (if (s.reg 15).getLsbD 7 then 2 else 0) else if (s.reg x).getLsbD 7 then 1 else 0) ∧
      (x ≠ 15 → t.reg x = s.reg x <<< 1)

/-- RND Vx, NN: `VX` takes the step's random byte masked by NN, for every value of that byte (R131). -/
def Obligations.RndMasksTheDraw : Prop :=
  ∀ (x : RegNo) (nn : Byte) (s : State),
    decodeWord (0xC#4 ++ nibble x ++ nn) = .ok (.rnd x nn) ∧
    ∃ t, exec (.rnd x nn) s = .next t ∧ t.reg x = s.input.rnd &&& nn ∧
      (∀ k, nn.getLsbD k = false → (t.reg x).getLsbD k = false) ∧ KeepsAllBut [x] [] s t

/-! ## Index register and memory (spec/43_index_mem.md) -/

/-- LD I, NNN; ADD I, Vx (modulo 65536, no flag); LD F, Vx (five times all of `VX`): `I` and nothing else (R140, R141, R142). -/
def Obligations.IndexLoads : Prop :=
  ∀ (nnn : BitVec 12) (x : RegNo) (s : State),
    decodeWord (0xA#4 ++ nnn) = .ok (.ldI nnn) ∧ decodeWord (0xF#4 ++ nibble x ++ 0x1E#8) = .ok (.addI x) ∧
    decodeWord (0xF#4 ++ nibble x ++ 0x29#8) = .ok (.ldF x) ∧
    (∃ t, exec (.ldI nnn) s = .next t ∧ t.I.toNat = nnn.toNat ∧ KeepsAllBut [] [.index] s t) ∧
    (∃ t, exec (.addI x) s = .next t ∧ t.I.toNat = (s.I.toNat + (s.reg x).toNat) % 65536 ∧ KeepsAllBut [] [.index] s t) ∧
    ∃ t, exec (.ldF x) s = .next t ∧ t.I.toNat = 0x000 + 5 * (s.reg x).toNat ∧ KeepsAllBut [] [.index] s t

/-- LD B, Vx: hundreds, tens and units at `I`, `I+1`, `I+2`, every other byte as before, `I` unchanged; DataFault with nothing
written where an address is out of range (R143). -/
def Obligations.BcdStore : Prop :=
  ∀ (x : RegNo) (s : State),
    decodeWord (0xF#4 ++ nibble x ++ 0x33#8) = .ok (.ldB x) ∧
    (s.I.toNat + 2 < 4096 →
      ∃ t, exec (.ldB x) s = .next t ∧
        (t.mem.read (s.effAddr 0)).toNat = (s.reg x).toNat / 100 ∧
        (t.mem.read (s.effAddr 0 + 1)).toNat = (s.reg x).toNat / 10 % 10 ∧
        (t.mem.read (s.effAddr 0 + 2)).toNat = (s.reg x).toNat % 10 ∧
        (∀ a, a < s.effAddr 0 ∨ s.effAddr 0 + 3 ≤ a → t.mem.read a = s.mem.read a) ∧
        s.effAddr 0 = s.I.toNat ∧ KeepsAllBut [] [.memory] s t) ∧
    (4096 ≤ s.I.toNat + 2 →
      ∃ t, exec (.ldB x) s = .next t ∧ TakesFault .dataFault (0xF#4 ++ nibble x ++ 0x33#8) s t)

/-- LD [I], Vx: V0..VX at `I`, `I+1`, ..., every other byte as before, `I` up by `X + 1`; DataFault with nothing written where an
address is out of range (R144). -/
def Obligations.BlockStore : Prop :=
  ∀ (x : RegNo) (s : State),
    decodeWord (0xF#4 ++ nibble x ++ 0x55#8) = .ok (.storeRegs x) ∧
    (s.I.toNat + x.val < 4096 →
      ∃ t, exec (.storeRegs x) s = .next t ∧
        (∀ k : RegNo, k ≤ x → t.mem.read (s.effAddr 0 + k.val) = s.reg k) ∧
        (∀ a, a < s.effAddr 0 ∨ s.effAddr 0 + (x.val + 1) ≤ a → t.mem.read a = s.mem.read a) ∧
        s.effAddr 0 = s.I.toNat ∧ t.I.toNat = (s.I.toNat + x.val + 1) % 65536 ∧ KeepsAllBut [] [.memory, .index] s t) ∧
    (4096 ≤ s.I.toNat + x.val →
      ∃ t, exec (.storeRegs x) s = .next t ∧ TakesFault .dataFault (0xF#4 ++ nibble x ++ 0x55#8) s t)

/-- LD Vx, [I]: V0..VX from `I`, `I+1`, ..., the registers above `VX` as before, `I` up by `X + 1`; DataFault with nothing loaded
where an address is out of range. A block store and then, with `I` set back and whatever the registers then hold, a block
load of the same `X` restores V0..VX, and `I` advances by `X + 1` each time (R145). -/
def Obligations.BlockLoad : Prop :=
  ∀ (x : RegNo) (s : State),
    decodeWord (0xF#4 ++ nibble x ++ 0x65#8) = .ok (.loadRegs x) ∧
    (s.I.toNat + x.val < 4096 →
      ∃ t, exec (.loadRegs x) s = .next t ∧
        (∀ k : RegNo, t.reg k = if k ≤ x then s.mem.read (s.I.toNat + k.val) else s.reg k) ∧
        t.I.toNat = (s.I.toNat + x.val + 1) % 65536 ∧ ∀ p, p ≠ .index → Part.Kept s t p) ∧
    (4096 ≤ s.I.toNat + x.val →
      ∃ t, exec (.loadRegs x) s = .next t ∧ TakesFault .dataFault (0xF#4 ++ nibble x ++ 0x65#8) s t) ∧
    ∀ (t : State) (v : Vector Byte 16), s.I.toNat + x.val < 4096 → exec (.storeRegs x) s = .next t →
      ∃ u, exec (.loadRegs x) { t with V := v, I := s.I } = .next u ∧ (∀ k : RegNo, k ≤ x → u.reg k = s.reg k) ∧
        t.I = s.I + BitVec.ofNat 16 (x.val + 1) ∧ u.I = s.I + BitVec.ofNat 16 (x.val + 1)

/-- The four instructions that access memory through `I` take a DataFault, code 5, exactly when the highest address they would
touch is at or above `MEM_SIZE`, and then nothing else happens (R185). -/
def Obligations.DataFaultBeforeFirstAccess : Prop :=
  Cause.dataFault.code = 5 ∧
  ∀ (i : Instr) (s : State), s.fault.cause = .running →
    ((∃ x y n, i = .drw x y n) ∨ (∃ x, i = .ldB x) ∨ (∃ x, i = .storeRegs x) ∨ ∃ x, i = .loadRegs x) →
    ∃ t, exec i s = .next t ∧ (s.DataOutOfRange i → TakesFault .dataFault (encode i) s t) ∧
      (¬ s.DataOutOfRange i → t.fault.cause = .running)

/-! ## Display (spec/44_display.md) -/

/-- CLS: every pixel off, `disp_written` 1, nothing else, `VF` included (R150). -/
def Obligations.ClsClearsThePicture : Prop :=
  decodeWord 0x00E0#16 = .ok .cls ∧
  ∀ s : State, ∃ t, exec .cls s = .next t ∧ (∀ px py, t.readPixel px py = false) ∧ t.dispWritten = true ∧
    KeepsAllBut [] [.picture, .dispWritten] s t

/-- DRW Vx, Vy, N: every pixel is XORed with the sprite bit that falls on it, wrapped at the edges; `VF` is 1 exactly when a pixel
that was on meets a sprite bit that is 1, else 0, the coordinates taken before it is written; `disp_written` is 1; `N = 0`
draws nothing and never faults; a row out of range is a DataFault with nothing drawn (R151, R152). -/
def Obligations.DrwXorsTheSprite : Prop :=
  ∀ (x y : RegNo) (n : BitVec 4) (s : State),
    decodeWord (0xD#4 ++ nibble x ++ nibble y ++ n) = .ok (.drw x y n) ∧
    (n = 0 ∨ s.I.toNat + n.toNat - 1 < 4096 →
      ∃ t, exec (.drw x y n) s = .next t ∧
        (∀ px py, px < 64 → py < 32 →
          t.readPixel px py = (s.readPixel px py ^^ spriteOn s (s.reg x).toNat (s.reg y).toNat n.toNat px py)) ∧
        (t.reg 15 = 1 ∨ t.reg 15 = 0) ∧
        (t.reg 15 = 1 ↔ ∃ px py, px < 64 ∧ py < 32 ∧ s.readPixel px py = true ∧
          spriteOn s (s.reg x).toNat (s.reg y).toNat n.toNat px py = true) ∧
        t.dispWritten = true ∧ KeepsAllBut [15] [.picture, .dispWritten] s t) ∧
    (0 < n.toNat → 4096 ≤ s.I.toNat + n.toNat - 1 →
      ∃ t, exec (.drw x y n) s = .next t ∧ TakesFault .dataFault (0xD#4 ++ nibble x ++ nibble y ++ n) s t)

/-- The same sprite drawn twice at the same place (`X`, `Y` other than 15) leaves every pixel as it was; the second draw's `VF` is 1
exactly when some 1 bit of the sprite lies on a pixel that was off before the first draw (spec/90_conflicts.md C3, R151). -/
def Obligations.DrawTwiceRestoresThePicture : Prop :=
  ∀ (x y : RegNo) (n : BitVec 4) (s t u : State), x ≠ 15 → y ≠ 15 → (n = 0 ∨ s.I.toNat + n.toNat - 1 < 4096) →
    exec (.drw x y n) s = .next t → exec (.drw x y n) t = .next u →
    (∀ px py, u.readPixel px py = s.readPixel px py) ∧
    (u.reg 15 = 1 ↔ ∃ px py, px < 64 ∧ py < 32 ∧ s.readPixel px py = false ∧
      spriteOn s (s.reg x).toNat (s.reg y).toNat n.toNat px py = true)

/-! ## Keypad (spec/45_keypad.md) -/

/-- The keypad is a level signal: a `set_key` changes the level of its key alone, the last write of a key wins, and writes of two keys
come out the same in either order (R35, R64). -/
def Obligations.KeypadIsLevelState : Prop :=
  ∀ (keys : BitVec 16) (k j : RegNo) (b c : Bool),
    keyGet (keySet keys k b) k = b ∧ (j ≠ k → keyGet (keySet keys k b) j = keyGet keys j) ∧
    keySet (keySet keys k b) k c = keySet keys k c ∧
    (j ≠ k → keySet (keySet keys k b) j c = keySet (keySet keys j c) k b)

/-- SKP and SKNP: with `VX` a key number, the skip is on the level of that key in the step's sample, pressed or not pressed, and
nothing else changes; with `VX` above 15, KeyIndexFault (R160, R161). -/
def Obligations.KeySkipsTestTheLevel : Prop :=
  ∀ (x : RegNo) (s : State),
    decodeWord (0xE#4 ++ nibble x ++ 0x9E#8) = .ok (.skp x) ∧ decodeWord (0xE#4 ++ nibble x ++ 0xA1#8) = .ok (.sknp x) ∧
    ((s.reg x).toNat ≤ 15 →
      (∃ t, exec (.skp x) s = .next t ∧
        t.pc = (if s.input.keys.getLsbD (s.reg x).toNat then s.pc + 2 else s.pc) ∧ KeepsAllBut [] [.pc] s t) ∧
      ∃ t, exec (.sknp x) s = .next t ∧
        t.pc = (if s.input.keys.getLsbD (s.reg x).toNat then s.pc else s.pc + 2) ∧ KeepsAllBut [] [.pc] s t) ∧
    (15 < (s.reg x).toNat →
      (∃ t, exec (.skp x) s = .next t ∧ TakesFault .keyIndexFault (0xE#4 ++ nibble x ++ 0x9E#8) s t) ∧
      ∃ t, exec (.sknp x) s = .next t ∧ TakesFault .keyIndexFault (0xE#4 ++ nibble x ++ 0xA1#8) s t)

/-- LD Vx, K: with no key down now that was up at the previous step, `pc` goes back by 2 and nothing else changes; else `VX` takes
the least such key and nothing else changes. The step of a waiting core ends at the same `pc`, and its timers and the key latch
still follow the inputs (R162). -/
def Obligations.KeyWaitPollsForAnEdge : Prop :=
  ∀ (x : RegNo) (s : State),
    decodeWord (0xF#4 ++ nibble x ++ 0x0A#8) = .ok (.ldVxK x) ∧
    ((∀ k, k < 16 → s.input.keys.getLsbD k = true → s.keyPrev.getLsbD k = true) →
      ∃ t, exec (.ldVxK x) s = .next t ∧ t.pc = s.pc - 2 ∧ KeepsAllBut [] [.pc] s t) ∧
    (∀ k, k < 16 → s.input.keys.getLsbD k = true → s.keyPrev.getLsbD k = false →
      (∀ j, j < k → s.input.keys.getLsbD j = true → s.keyPrev.getLsbD j = true) →
      ∃ t, exec (.ldVxK x) s = .next t ∧ (t.reg x).toNat = k ∧ KeepsAllBut [x] [] s t) ∧
    (s.fault.cause = .running → s.pc.toNat + 1 < 4096 → decodeWord s.wordAtPc = .ok (.ldVxK x) →
      (∀ k, k < 16 → s.input.keys.getLsbD k = true → s.keyPrev.getLsbD k = true) →
      ∃ t, step s = .next t ∧ t.keyPrev = s.input.keys ∧
        t.DT.toNat = (if s.input.tickDue then s.DT.toNat - 1 else s.DT.toNat) ∧
        t.ST.toNat = (if s.input.tickDue then s.ST.toNat - 1 else s.ST.toNat) ∧
        KeepsAllBut [] [.delay, .sound, .sndZero, .dispWritten, .keyPrev, .inputs] s t)

/-! ## Timers (spec/46_timers.md) -/

/-- LD Vx, DT; LD DT, Vx; LD ST, Vx: the one move and nothing else, no sound signal included. In a whole step LD Vx, DT reads `DT`
before the step's tick, and a tick takes down at once the value a timer was just set to; the sound signal is then that of a tick
from 1 to 0 (R170, R171, R172). -/
def Obligations.TimerMoves : Prop :=
  ∀ (x : RegNo) (s : State),
    decodeWord (0xF#4 ++ nibble x ++ 0x07#8) = .ok (.ldVxDt x) ∧ decodeWord (0xF#4 ++ nibble x ++ 0x15#8) = .ok (.ldDtVx x) ∧
    decodeWord (0xF#4 ++ nibble x ++ 0x18#8) = .ok (.ldStVx x) ∧
    (∃ t, exec (.ldVxDt x) s = .next t ∧ t.reg x = s.DT ∧ KeepsAllBut [x] [] s t) ∧
    (∃ t, exec (.ldDtVx x) s = .next t ∧ t.DT = s.reg x ∧ KeepsAllBut [] [.delay] s t) ∧
    (∃ t, exec (.ldStVx x) s = .next t ∧ t.ST = s.reg x ∧ KeepsAllBut [] [.sound] s t) ∧
    (s.fault.cause = .running → s.pc.toNat + 1 < 4096 →
      (decodeWord s.wordAtPc = .ok (.ldVxDt x) → ∃ t, step s = .next t ∧ t.reg x = s.DT) ∧
      (decodeWord s.wordAtPc = .ok (.ldDtVx x) → ∃ t, step s = .next t ∧
        t.DT.toNat = if s.input.tickDue then (s.reg x).toNat - 1 else (s.reg x).toNat) ∧
      (decodeWord s.wordAtPc = .ok (.ldStVx x) → ∃ t, step s = .next t ∧
        t.ST.toNat = (if s.input.tickDue then (s.reg x).toNat - 1 else (s.reg x).toNat) ∧
        (t.sndZero = true ↔ s.input.tickDue = true ∧ s.reg x = 1)))

/-! ## Whole-machine rules -/

/-- No instruction but the six writes `VF`, unless its destination field `X` is 15 (R21). -/
def Obligations.OnlySixInstructionsWriteVf : Prop :=
  ∀ (i : Instr) (s t : State), exec i s = .next t → writesFlag i = false → destField i ≠ some 15 → t.reg 15 = s.reg 15

/-- Only CALL writes the stack; only CALL and RET change `sp`, CALL by one up if at all and RET by one down if at all; only RET's
next state depends on the stack's contents: on another stack every other instruction gives the same next state with that stack,
CALL with the return address written into that stack, or untouched where it overflows (R24, R25). -/
def Obligations.OnlyCallAndRetTouchTheStack : Prop :=
  ∀ (i : Instr) (s t : State), exec i s = .next t →
    ((∀ nnn, i ≠ .call nnn) → t.stack = s.stack) ∧
    ((∀ nnn, i ≠ .call nnn) → i ≠ .ret → t.sp = s.sp) ∧
    ((∃ nnn, i = .call nnn) → t.sp.val = if s.sp.val < 16 then s.sp.val + 1 else s.sp.val) ∧
    (i = .ret → t.sp.val = s.sp.val - 1) ∧
    ((∀ nnn, i ≠ .call nnn) → i ≠ .ret → ∀ st : Vector Word 16, exec i { s with stack := st } = .next { t with stack := st }) ∧
    ((∃ nnn, i = .call nnn) → ∀ st : Vector Word 16,
      (∀ h : s.sp.val < 16, exec i { s with stack := st } = .next { t with stack := st.set s.sp.val s.pc h }) ∧
      (s.sp.val = 16 → exec i { s with stack := st } = .next { t with stack := st }))

/-- Only LD B and LD [I] change memory (R38, R50); only CLS and DRW change the picture (R34, R50); only the five index instructions
change `I` (R22); only LD DT, Vx changes the delay timer (R26) and only LD ST, Vx the sound timer (R27), the tick apart, which is
no instruction; none changes the key latch, written at the end of a step (R32), or the step inputs, constant during a step (R36),
which the model's own fields `inputs` and `draws` carry (log 1). -/
def Obligations.WritersOfEachStore : Prop :=
  ∀ (i : Instr) (s t : State), exec i s = .next t →
    ((∀ x, i ≠ .ldB x) → (∀ x, i ≠ .storeRegs x) → t.mem = s.mem) ∧
    (i ≠ .cls → (∀ x y n, i ≠ .drw x y n) → t.fb = s.fb) ∧
    ((∀ nnn, i ≠ .ldI nnn) → (∀ x, i ≠ .addI x) → (∀ x, i ≠ .ldF x) → (∀ x, i ≠ .storeRegs x) → (∀ x, i ≠ .loadRegs x) →
      t.I = s.I) ∧
    ((∀ x, i ≠ .ldDtVx x) → t.DT = s.DT) ∧ ((∀ x, i ≠ .ldStVx x) → t.ST = s.ST) ∧
    t.keyPrev = s.keyPrev ∧ t.inputs = s.inputs ∧ t.draws = s.draws

/-- No instruction reads `ST`: with another value there, everything else comes out the same; LD ST, Vx leaves its own value there
whatever stood before (R27). -/
def Obligations.NoInstructionReadsSoundTimer : Prop :=
  ∀ (i : Instr) (s t : State) (v : Byte), exec i s = .next t →
    ((∀ x, i ≠ .ldStVx x) → exec i { s with ST := v } = .next { t with ST := v }) ∧
    ((∃ x, i = .ldStVx x) → exec i { s with ST := v } = .next t)

/-- Only LD Vx, K reads `key_prev`: for every other instruction, another value there changes nothing else (R32). -/
def Obligations.OnlyKeyWaitReadsKeyLatch : Prop :=
  ∀ (i : Instr) (s t : State) (v : BitVec 16), (∀ x, i ≠ .ldVxK x) → exec i s = .next t →
    exec i { s with keyPrev := v } = .next { t with keyPrev := v }
end

