-- ==== Sys2Proof/Laws/Decode.lean ====
section
/-! SUPPORT. The fields of an encoded word (spec/30_encoding.md R81, R82): what each encoding format puts where. -/

namespace Sys2Proof

/-- Concatenation as arithmetic (R6). -/
theorem toNat_append_eq {m n : Nat} (a : BitVec m) (b : BitVec n) : (a ++ b).toNat = a.toNat * 2 ^ n + b.toNat := by
  rw [BitVec.toNat_append, ← Nat.shiftLeft_add_eq_or_of_lt b.isLt, Nat.shiftLeft_eq]

/-- A field as arithmetic (R6). -/
theorem toNat_extract_eq {w : Nat} (a : BitVec w) (lo n : Nat) : (a.extractLsb' lo n).toNat = a.toNat / 2 ^ lo % 2 ^ n := by
  rw [BitVec.extractLsb'_toNat, Nat.shiftRight_eq_div_pow]

/-! ## The words as numbers -/

theorem encodeXYN_toNat (f : BitVec 4) (x y : RegNo) (n : BitVec 4) :
    (encodeXYN f x y n).toNat = f.toNat * 4096 + x.val * 256 + y.val * 16 + n.toNat := by
  unfold encodeXYN nibble
  simp only [toNat_append_eq, BitVec.toNat_ofFin]
  omega

theorem encodeXNN_toNat (f : BitVec 4) (x : RegNo) (nn : Byte) :
    (encodeXNN f x nn).toNat = f.toNat * 4096 + x.val * 256 + nn.toNat := by
  unfold encodeXNN nibble
  simp only [toNat_append_eq, BitVec.toNat_ofFin]
  omega

theorem encodeNNN_toNat (f : BitVec 4) (nnn : BitVec 12) : (encodeNNN f nnn).toNat = f.toNat * 4096 + nnn.toNat := by
  unfold encodeNNN
  simp only [toNat_append_eq]
  omega

/-! ## The fields as numbers (R81) -/

theorem famField_toNat (op : Word) : (famField op).toNat = op.toNat / 4096 := by
  have := op.isLt
  unfold famField; rw [toNat_extract_eq]; omega

theorem xField_val (op : Word) : (xField op).val = op.toNat / 256 % 16 := by
  unfold xField; exact toNat_extract_eq op 8 4

theorem yField_val (op : Word) : (yField op).val = op.toNat / 16 % 16 := by
  unfold yField; exact toNat_extract_eq op 4 4

theorem nField_toNat (op : Word) : (nField op).toNat = op.toNat % 16 := by
  unfold nField; rw [toNat_extract_eq]; omega

theorem nnField_toNat (op : Word) : (nnField op).toNat = op.toNat % 256 := by
  unfold nnField; rw [toNat_extract_eq]; omega

theorem nnnField_toNat (op : Word) : (nnnField op).toNat = op.toNat % 4096 := by
  unfold nnnField; rw [toNat_extract_eq]; omega

/-! ## Format XYN -/

section
variable (f : BitVec 4) (x y : RegNo) (n : BitVec 4)

@[simp] theorem famField_encodeXYN : famField (encodeXYN f x y n) = f := by
  apply BitVec.eq_of_toNat_eq
  have := x.isLt; have := y.isLt; have := n.isLt
  rw [famField_toNat, encodeXYN_toNat]; omega

@[simp] theorem xField_encodeXYN : xField (encodeXYN f x y n) = x := by
  apply Fin.ext
  have := x.isLt; have := y.isLt; have := n.isLt
  rw [xField_val, encodeXYN_toNat]; omega

@[simp] theorem yField_encodeXYN : yField (encodeXYN f x y n) = y := by
  apply Fin.ext
  have := x.isLt; have := y.isLt; have := n.isLt
  rw [yField_val, encodeXYN_toNat]; omega

@[simp] theorem nField_encodeXYN : nField (encodeXYN f x y n) = n := by
  apply BitVec.eq_of_toNat_eq
  have := n.isLt
  rw [nField_toNat, encodeXYN_toNat]; omega

end

/-! ## Formats XNN and X -/

section
variable (f : BitVec 4) (x : RegNo) (nn : Byte)

@[simp] theorem famField_encodeXNN : famField (encodeXNN f x nn) = f := by
  apply BitVec.eq_of_toNat_eq
  have := x.isLt; have := nn.isLt
  rw [famField_toNat, encodeXNN_toNat]; omega

@[simp] theorem xField_encodeXNN : xField (encodeXNN f x nn) = x := by
  apply Fin.ext
  have := x.isLt; have := nn.isLt
  rw [xField_val, encodeXNN_toNat]; omega

@[simp] theorem nnField_encodeXNN : nnField (encodeXNN f x nn) = nn := by
  apply BitVec.eq_of_toNat_eq
  have := nn.isLt
  rw [nnField_toNat, encodeXNN_toNat]; omega

end

/-! ## Format NNN -/

section
variable (f : BitVec 4) (nnn : BitVec 12)

@[simp] theorem famField_encodeNNN : famField (encodeNNN f nnn) = f := by
  apply BitVec.eq_of_toNat_eq
  have := nnn.isLt
  rw [famField_toNat, encodeNNN_toNat]; omega

@[simp] theorem nnnField_encodeNNN : nnnField (encodeNNN f nnn) = nnn := by
  apply BitVec.eq_of_toNat_eq
  have := nnn.isLt
  rw [nnnField_toNat, encodeNNN_toNat]; omega

end

/-! ## The masks of R87 -/

theorem encodeNNN_getLsbD (f : BitVec 4) (nnn : BitVec 12) (k : Nat) :
    (encodeNNN f nnn).getLsbD k = if k < 12 then nnn.getLsbD k else f.getLsbD (k - 12) := BitVec.getLsbD_append

theorem encodeXNN_getLsbD (f : BitVec 4) (x : RegNo) (nn : Byte) (k : Nat) :
    (encodeXNN f x nn).getLsbD k = if k < 8 then nn.getLsbD k else
      if k - 8 < 4 then (nibble x).getLsbD (k - 8) else f.getLsbD (k - 8 - 4) := by
  rw [← BitVec.getLsbD_append]; exact BitVec.getLsbD_append

theorem encodeXYN_getLsbD (f : BitVec 4) (x y : RegNo) (n : BitVec 4) (k : Nat) :
    (encodeXYN f x y n).getLsbD k = if k < 4 then n.getLsbD k else
      if k - 4 < 4 then (nibble y).getLsbD (k - 4) else
      if k - 4 - 4 < 4 then (nibble x).getLsbD (k - 4 - 4) else f.getLsbD (k - 4 - 4 - 4) := by
  rw [← BitVec.getLsbD_append, ← BitVec.getLsbD_append]; exact BitVec.getLsbD_append

/-- The mask of format NNN keeps `fam`. -/
theorem and_F000 (op : Word) : op &&& 0xF000#16 = encodeNNN (famField op) 0#12 := by
  apply BitVec.eq_of_getLsbD_eq
  intro k hk
  rw [encodeNNN_getLsbD]
  unfold famField
  interval_cases k <;> simp

/-- The mask of the families 5, 8, 9 keeps `fam` and `N`. -/
theorem and_F00F (op : Word) : op &&& 0xF00F#16 = encodeXYN (famField op) 0 0 (nField op) := by
  apply BitVec.eq_of_getLsbD_eq
  intro k hk
  rw [encodeXYN_getLsbD]
  unfold famField nField nibble
  interval_cases k <;> simp

/-- The mask of the families E, F keeps `fam` and `NN`. -/
theorem and_F0FF (op : Word) : op &&& 0xF0FF#16 = encodeXNN (famField op) 0 (nnField op) := by
  apply BitVec.eq_of_getLsbD_eq
  intro k hk
  rw [encodeXNN_getLsbD]
  unfold famField nnField nibble
  interval_cases k <;> simp

/-- The mask of the two fixed words keeps everything. -/
theorem and_FFFF (op : Word) : op &&& 0xFFFF#16 = op := BitVec.and_allOnes

/-! ## Words are their fields -/

/-- A word is the XYN encoding of its own fields. -/
theorem encodeXYN_fields (op : Word) : encodeXYN (famField op) (xField op) (yField op) (nField op) = op := by
  apply BitVec.eq_of_toNat_eq
  rw [encodeXYN_toNat, famField_toNat, xField_val, yField_val, nField_toNat]; omega

/-- A word is the XNN encoding of its own fields. -/
theorem encodeXNN_fields (op : Word) : encodeXNN (famField op) (xField op) (nnField op) = op := by
  apply BitVec.eq_of_toNat_eq
  rw [encodeXNN_toNat, famField_toNat, xField_val, nnField_toNat]; omega

/-- A word is the NNN encoding of its own fields. -/
theorem encodeNNN_fields (op : Word) : encodeNNN (famField op) (nnnField op) = op := by
  apply BitVec.eq_of_toNat_eq
  rw [encodeNNN_toNat, famField_toNat, nnnField_toNat]; omega

end Sys2Proof
end

