-- ==== Sys2Proof/Laws/Memory.lean ====
section
/-! SUPPORT. Main memory: a read after a write, and that every operation keeps the canonical form. -/

namespace Sys2Proof.Machine

/-! ## Reads -/

/-- An erased address reads as unlisted, the others as before. -/
theorem Memory.read_erase (m : Memory) (a k : Nat) :
    (m.erase a).read k = if k = a then Memory.unlisted else m.read k := by
  induction m with
  | nil => simp [Memory.erase, Memory.read]
  | cons c rest ih =>
    unfold Memory.erase at ih ⊢
    by_cases hc : c.1 = a
    · simp only [hc, bne_self_eq_false, List.filter_cons, Bool.false_eq_true, if_false, ih, Memory.read]
      by_cases hk : k = a
      · simp [hk]
      · simp [hk, Ne.symm hk]
    · simp only [List.filter_cons, bne_iff_ne, ne_eq, hc, not_false_eq_true, if_true, Memory.read, ih]
      by_cases hk : k = a
      · subst hk; simp [hc]
      · simp [hk]

/-- An inserted entry is read at its address if the address was not listed; other addresses read as before. -/
theorem Memory.read_insert (m : Memory) (a k : Nat) (b : Byte) (h : ∀ c ∈ m, c.1 ≠ a) :
    (m.insert a b).read k = if k = a then b else m.read k := by
  induction m with
  | nil => simp [Memory.insert, Memory.read, eq_comm]
  | cons c rest ih =>
    have hc : c.1 ≠ a := h c (by simp)
    have ih' := ih (fun d hd => h d (by simp [hd]))
    unfold Memory.insert
    split
    · by_cases hk : k = a
      · simp [Memory.read, hk]
      · simp [Memory.read, hk, Ne.symm hk]
    · simp only [Memory.read, ih']
      by_cases hk : k = a
      · subst hk; simp [hc]
      · simp [hk]

/-- No entry of an erased memory has the erased address. -/
theorem Memory.erase_ne (m : Memory) (a : Nat) : ∀ c ∈ m.erase a, c.1 ≠ a := by
  intro c hc
  simpa using (List.mem_filter.mp hc).2

/-- A read after a write (R52, R53): the byte written at its address, the old byte elsewhere; for every list of cells. -/
@[simp] theorem Memory.read_write (m : Memory) (a k : Nat) (b : Byte) :
    (m.write a b).read k = if k = a then b else m.read k := by
  unfold Memory.write
  split
  · rename_i hb; rw [Memory.read_erase, hb]
  · rw [Memory.read_insert _ _ _ _ (m.erase_ne a), Memory.read_erase]
    by_cases hk : k = a <;> simp [hk]

/-- A read after a run of writes (R56): byte `k - a` of the run inside it, the old byte outside. -/
theorem Memory.read_writeList (m : Memory) (a k : Nat) (bs : List Byte) :
    (m.writeList a bs).read k = if h : a ≤ k ∧ k - a < bs.length then bs[k - a]'h.2 else m.read k := by
  induction bs generalizing m a with
  | nil => simp [Memory.writeList]
  | cons b rest ih =>
    simp only [Memory.writeList, ih, Memory.read_write, List.length_cons]
    by_cases h1 : a + 1 ≤ k ∧ k - (a + 1) < rest.length
    · have h2 : a ≤ k ∧ k - a < rest.length + 1 := by omega
      have h3 : k - a = (k - (a + 1)) + 1 := by omega
      simp [h1, h2, h3]
    · by_cases hk : k = a
      · subst hk; simp
      · have h2 : ¬ (a ≤ k ∧ k - a < rest.length + 1) := by omega
        rw [dif_neg h1, dif_neg h2, if_neg hk]

/-- Outside the run, a run of writes changes no byte. -/
theorem Memory.read_writeList_outside (m : Memory) (a k : Nat) (bs : List Byte) (h : k < a ∨ a + bs.length ≤ k) :
    (m.writeList a bs).read k = m.read k := by
  rw [Memory.read_writeList, dif_neg (by omega)]

/-! ## The canonical form -/

/-- Reset memory, with nothing listed, is canonical. -/
theorem Memory.wf_nil : Memory.wf [] := by simp [Memory.wf]

/-- Erasing keeps the canonical form. -/
theorem Memory.wf_erase {m : Memory} (h : m.wf) (a : Nat) : (m.erase a).wf :=
  ⟨h.1.filter _, fun c hc => h.2 c (List.mem_filter.mp hc).1⟩

/-- The entries after an insertion are the new one and the old ones. -/
theorem Memory.mem_insert {m : Memory} {a : Nat} {b : Byte} {c : Host.Cell} (h : c ∈ m.insert a b) :
    c = (a, b) ∨ c ∈ m := by
  induction m with
  | nil => simpa [Memory.insert] using h
  | cons d rest ih =>
    unfold Memory.insert at h
    split at h
    · simpa using h
    · rcases List.mem_cons.mp h with rfl | h
      · simp
      · rcases ih h with rfl | h
        · simp
        · simp [h]

/-- Inserting a new address below `MEM_SIZE` with a byte that must be listed keeps the canonical form. -/
theorem Memory.wf_insert {m : Memory} (h : m.wf) {a : Nat} {b : Byte} (hn : ∀ c ∈ m, c.1 ≠ a) (ha : a < Config.memSize)
    (hb : b ≠ Memory.unlisted) : (m.insert a b).wf := by
  refine ⟨?_, fun c hc => ?_⟩
  · induction m with
    | nil => simp [Memory.insert]
    | cons d rest ih =>
      obtain ⟨hd, hr⟩ := List.pairwise_cons.mp h.1
      have hda : d.1 ≠ a := hn d (by simp)
      have ih' := ih ⟨hr, fun c hc => h.2 c (by simp [hc])⟩ (fun c hc => hn c (by simp [hc]))
      unfold Memory.insert
      split
      · rename_i hlt
        refine List.pairwise_cons.mpr ⟨fun c hc => ?_, h.1⟩
        rcases List.mem_cons.mp hc with rfl | hc
        · exact hlt
        · exact Nat.lt_trans hlt (hd c hc)
      · rename_i hle
        refine List.pairwise_cons.mpr ⟨fun c hc => ?_, ih'⟩
        rcases Memory.mem_insert hc with rfl | hc
        · show d.1 < a; omega
        · exact hd c hc
  · rcases Memory.mem_insert hc with rfl | hc
    · exact ⟨hb, ha⟩
    · exact h.2 c hc

/-- A write below `MEM_SIZE` keeps the canonical form. -/
theorem Memory.wf_write {m : Memory} (h : m.wf) {a : Nat} (ha : a < Config.memSize) (b : Byte) : (m.write a b).wf := by
  unfold Memory.write
  split
  · exact Memory.wf_erase h a
  · rename_i hb
    exact Memory.wf_insert (Memory.wf_erase h a) (m.erase_ne a) ha hb

/-- A run of writes below `MEM_SIZE` keeps the canonical form. -/
theorem Memory.wf_writeList {m : Memory} (h : m.wf) {a : Nat} {bs : List Byte} (ha : a + bs.length ≤ Config.memSize) :
    (m.writeList a bs).wf := by
  induction bs generalizing m a with
  | nil => exact h
  | cons b rest ih =>
    simp only [List.length_cons] at ha
    exact ih (Memory.wf_write h (by omega) b) (by omega)

/-- Two canonical memories that read alike are the same list. -/
theorem Memory.ext_of_read {m n : Memory} (hm : m.wf) (hn : n.wf) (h : ∀ a, m.read a = n.read a) : m = n := by
  have unread : ∀ {l : Memory} {a : Nat}, (∀ c ∈ l, a < c.1) → l.read a = Memory.unlisted := by
    intro l a hl
    induction l with
    | nil => rfl
    | cons c rest ih =>
      have : c.1 ≠ a := Nat.ne_of_gt (hl c (by simp))
      simp only [Memory.read, this, if_false]
      exact ih (fun d hd => hl d (by simp [hd]))
  induction m generalizing n with
  | nil =>
    cases n with
    | nil => rfl
    | cons d rest =>
      have := h d.1
      simp only [Memory.read, if_true] at this
      exact absurd this.symm (hn.2 d (by simp)).1
  | cons c m' ih =>
    cases n with
    | nil =>
      have := h c.1
      simp only [Memory.read, if_true] at this
      exact absurd this (hm.2 c (by simp)).1
    | cons d n' =>
      obtain ⟨hc, hm'⟩ := List.pairwise_cons.mp hm.1
      obtain ⟨hd, hn'⟩ := List.pairwise_cons.mp hn.1
      have hcd : c.1 = d.1 := by
        rcases Nat.lt_trichotomy c.1 d.1 with hlt | heq | hlt
        · have := h c.1
          simp only [Memory.read, if_true, Nat.ne_of_gt hlt, if_false] at this
          rw [unread (fun e he => Nat.lt_trans hlt (hd e he))] at this
          exact absurd this (hm.2 c (by simp)).1
        · exact heq
        · have := h d.1
          simp only [Memory.read, if_true, Nat.ne_of_gt hlt, if_false] at this
          rw [unread (fun e he => Nat.lt_trans hlt (hc e he))] at this
          exact absurd this.symm (hn.2 d (by simp)).1
      have hb : c.2 = d.2 := by
        have := h c.1
        simpa only [Memory.read, if_true, hcd] using this
      have htail : m' = n' := by
        refine ih ⟨hm', fun e he => hm.2 e (by simp [he])⟩ ⟨hn', fun e he => hn.2 e (by simp [he])⟩ (fun a => ?_)
        by_cases ha : a = c.1
        · subst ha
          rw [unread hc, unread (by rw [hcd]; exact hd)]
        · have := h a
          simpa only [Memory.read, Ne.symm ha, hcd ▸ Ne.symm ha, if_false] using this
      rw [Prod.ext hcd hb, htail]

end Sys2Proof.Machine
end

