-- ==== Sys2Proof/Laws/State.lean ====
section
/-! SUPPORT. One lemma per field per state update, true by rfl, so that no later proof unfolds a record update. -/

namespace Sys2Proof.Machine

variable (s : State)

/-! ## `State.setReg` -/

@[simp] theorem State.setReg_V (r : RegNo) (b : Byte) : (s.setReg r b).V = s.V.set r.val b := rfl
@[simp] theorem State.setReg_I (r : RegNo) (b : Byte) : (s.setReg r b).I = s.I := rfl
@[simp] theorem State.setReg_pc (r : RegNo) (b : Byte) : (s.setReg r b).pc = s.pc := rfl
@[simp] theorem State.setReg_stack (r : RegNo) (b : Byte) : (s.setReg r b).stack = s.stack := rfl
@[simp] theorem State.setReg_sp (r : RegNo) (b : Byte) : (s.setReg r b).sp = s.sp := rfl
@[simp] theorem State.setReg_DT (r : RegNo) (b : Byte) : (s.setReg r b).DT = s.DT := rfl
@[simp] theorem State.setReg_ST (r : RegNo) (b : Byte) : (s.setReg r b).ST = s.ST := rfl
@[simp] theorem State.setReg_sndZero (r : RegNo) (b : Byte) : (s.setReg r b).sndZero = s.sndZero := rfl
@[simp] theorem State.setReg_dispWritten (r : RegNo) (b : Byte) : (s.setReg r b).dispWritten = s.dispWritten := rfl
@[simp] theorem State.setReg_fault (r : RegNo) (b : Byte) : (s.setReg r b).fault = s.fault := rfl
@[simp] theorem State.setReg_keyPrev (r : RegNo) (b : Byte) : (s.setReg r b).keyPrev = s.keyPrev := rfl
@[simp] theorem State.setReg_mem (r : RegNo) (b : Byte) : (s.setReg r b).mem = s.mem := rfl
@[simp] theorem State.setReg_fb (r : RegNo) (b : Byte) : (s.setReg r b).fb = s.fb := rfl
@[simp] theorem State.setReg_inputs (r : RegNo) (b : Byte) : (s.setReg r b).inputs = s.inputs := rfl
@[simp] theorem State.setReg_draws (r : RegNo) (b : Byte) : (s.setReg r b).draws = s.draws := rfl

/-! ## `State.setRegs` -/

@[simp] theorem State.setRegs_V (bs : List Byte) : (s.setRegs bs).V = setRegsFrom s.V 0 bs := rfl
@[simp] theorem State.setRegs_I (bs : List Byte) : (s.setRegs bs).I = s.I := rfl
@[simp] theorem State.setRegs_pc (bs : List Byte) : (s.setRegs bs).pc = s.pc := rfl
@[simp] theorem State.setRegs_stack (bs : List Byte) : (s.setRegs bs).stack = s.stack := rfl
@[simp] theorem State.setRegs_sp (bs : List Byte) : (s.setRegs bs).sp = s.sp := rfl
@[simp] theorem State.setRegs_DT (bs : List Byte) : (s.setRegs bs).DT = s.DT := rfl
@[simp] theorem State.setRegs_ST (bs : List Byte) : (s.setRegs bs).ST = s.ST := rfl
@[simp] theorem State.setRegs_sndZero (bs : List Byte) : (s.setRegs bs).sndZero = s.sndZero := rfl
@[simp] theorem State.setRegs_dispWritten (bs : List Byte) : (s.setRegs bs).dispWritten = s.dispWritten := rfl
@[simp] theorem State.setRegs_fault (bs : List Byte) : (s.setRegs bs).fault = s.fault := rfl
@[simp] theorem State.setRegs_keyPrev (bs : List Byte) : (s.setRegs bs).keyPrev = s.keyPrev := rfl
@[simp] theorem State.setRegs_mem (bs : List Byte) : (s.setRegs bs).mem = s.mem := rfl
@[simp] theorem State.setRegs_fb (bs : List Byte) : (s.setRegs bs).fb = s.fb := rfl
@[simp] theorem State.setRegs_inputs (bs : List Byte) : (s.setRegs bs).inputs = s.inputs := rfl
@[simp] theorem State.setRegs_draws (bs : List Byte) : (s.setRegs bs).draws = s.draws := rfl

/-! ## `State.setPc` -/

@[simp] theorem State.setPc_V (t : Word) : (s.setPc t).V = s.V := rfl
@[simp] theorem State.setPc_I (t : Word) : (s.setPc t).I = s.I := rfl
@[simp] theorem State.setPc_pc (t : Word) : (s.setPc t).pc = t := rfl
@[simp] theorem State.setPc_stack (t : Word) : (s.setPc t).stack = s.stack := rfl
@[simp] theorem State.setPc_sp (t : Word) : (s.setPc t).sp = s.sp := rfl
@[simp] theorem State.setPc_DT (t : Word) : (s.setPc t).DT = s.DT := rfl
@[simp] theorem State.setPc_ST (t : Word) : (s.setPc t).ST = s.ST := rfl
@[simp] theorem State.setPc_sndZero (t : Word) : (s.setPc t).sndZero = s.sndZero := rfl
@[simp] theorem State.setPc_dispWritten (t : Word) : (s.setPc t).dispWritten = s.dispWritten := rfl
@[simp] theorem State.setPc_fault (t : Word) : (s.setPc t).fault = s.fault := rfl
@[simp] theorem State.setPc_keyPrev (t : Word) : (s.setPc t).keyPrev = s.keyPrev := rfl
@[simp] theorem State.setPc_mem (t : Word) : (s.setPc t).mem = s.mem := rfl
@[simp] theorem State.setPc_fb (t : Word) : (s.setPc t).fb = s.fb := rfl
@[simp] theorem State.setPc_inputs (t : Word) : (s.setPc t).inputs = s.inputs := rfl
@[simp] theorem State.setPc_draws (t : Word) : (s.setPc t).draws = s.draws := rfl

/-! ## `State.setI` -/

@[simp] theorem State.setI_V (v : Word) : (s.setI v).V = s.V := rfl
@[simp] theorem State.setI_I (v : Word) : (s.setI v).I = v := rfl
@[simp] theorem State.setI_pc (v : Word) : (s.setI v).pc = s.pc := rfl
@[simp] theorem State.setI_stack (v : Word) : (s.setI v).stack = s.stack := rfl
@[simp] theorem State.setI_sp (v : Word) : (s.setI v).sp = s.sp := rfl
@[simp] theorem State.setI_DT (v : Word) : (s.setI v).DT = s.DT := rfl
@[simp] theorem State.setI_ST (v : Word) : (s.setI v).ST = s.ST := rfl
@[simp] theorem State.setI_sndZero (v : Word) : (s.setI v).sndZero = s.sndZero := rfl
@[simp] theorem State.setI_dispWritten (v : Word) : (s.setI v).dispWritten = s.dispWritten := rfl
@[simp] theorem State.setI_fault (v : Word) : (s.setI v).fault = s.fault := rfl
@[simp] theorem State.setI_keyPrev (v : Word) : (s.setI v).keyPrev = s.keyPrev := rfl
@[simp] theorem State.setI_mem (v : Word) : (s.setI v).mem = s.mem := rfl
@[simp] theorem State.setI_fb (v : Word) : (s.setI v).fb = s.fb := rfl
@[simp] theorem State.setI_inputs (v : Word) : (s.setI v).inputs = s.inputs := rfl
@[simp] theorem State.setI_draws (v : Word) : (s.setI v).draws = s.draws := rfl

/-! ## `State.setDT` -/

@[simp] theorem State.setDT_V (v : Byte) : (s.setDT v).V = s.V := rfl
@[simp] theorem State.setDT_I (v : Byte) : (s.setDT v).I = s.I := rfl
@[simp] theorem State.setDT_pc (v : Byte) : (s.setDT v).pc = s.pc := rfl
@[simp] theorem State.setDT_stack (v : Byte) : (s.setDT v).stack = s.stack := rfl
@[simp] theorem State.setDT_sp (v : Byte) : (s.setDT v).sp = s.sp := rfl
@[simp] theorem State.setDT_DT (v : Byte) : (s.setDT v).DT = v := rfl
@[simp] theorem State.setDT_ST (v : Byte) : (s.setDT v).ST = s.ST := rfl
@[simp] theorem State.setDT_sndZero (v : Byte) : (s.setDT v).sndZero = s.sndZero := rfl
@[simp] theorem State.setDT_dispWritten (v : Byte) : (s.setDT v).dispWritten = s.dispWritten := rfl
@[simp] theorem State.setDT_fault (v : Byte) : (s.setDT v).fault = s.fault := rfl
@[simp] theorem State.setDT_keyPrev (v : Byte) : (s.setDT v).keyPrev = s.keyPrev := rfl
@[simp] theorem State.setDT_mem (v : Byte) : (s.setDT v).mem = s.mem := rfl
@[simp] theorem State.setDT_fb (v : Byte) : (s.setDT v).fb = s.fb := rfl
@[simp] theorem State.setDT_inputs (v : Byte) : (s.setDT v).inputs = s.inputs := rfl
@[simp] theorem State.setDT_draws (v : Byte) : (s.setDT v).draws = s.draws := rfl

/-! ## `State.setST` -/

@[simp] theorem State.setST_V (v : Byte) : (s.setST v).V = s.V := rfl
@[simp] theorem State.setST_I (v : Byte) : (s.setST v).I = s.I := rfl
@[simp] theorem State.setST_pc (v : Byte) : (s.setST v).pc = s.pc := rfl
@[simp] theorem State.setST_stack (v : Byte) : (s.setST v).stack = s.stack := rfl
@[simp] theorem State.setST_sp (v : Byte) : (s.setST v).sp = s.sp := rfl
@[simp] theorem State.setST_DT (v : Byte) : (s.setST v).DT = s.DT := rfl
@[simp] theorem State.setST_ST (v : Byte) : (s.setST v).ST = v := rfl
@[simp] theorem State.setST_sndZero (v : Byte) : (s.setST v).sndZero = s.sndZero := rfl
@[simp] theorem State.setST_dispWritten (v : Byte) : (s.setST v).dispWritten = s.dispWritten := rfl
@[simp] theorem State.setST_fault (v : Byte) : (s.setST v).fault = s.fault := rfl
@[simp] theorem State.setST_keyPrev (v : Byte) : (s.setST v).keyPrev = s.keyPrev := rfl
@[simp] theorem State.setST_mem (v : Byte) : (s.setST v).mem = s.mem := rfl
@[simp] theorem State.setST_fb (v : Byte) : (s.setST v).fb = s.fb := rfl
@[simp] theorem State.setST_inputs (v : Byte) : (s.setST v).inputs = s.inputs := rfl
@[simp] theorem State.setST_draws (v : Byte) : (s.setST v).draws = s.draws := rfl

/-! ## `State.display` -/

@[simp] theorem State.display_V (f : Framebuffer) : (s.display f).V = s.V := rfl
@[simp] theorem State.display_I (f : Framebuffer) : (s.display f).I = s.I := rfl
@[simp] theorem State.display_pc (f : Framebuffer) : (s.display f).pc = s.pc := rfl
@[simp] theorem State.display_stack (f : Framebuffer) : (s.display f).stack = s.stack := rfl
@[simp] theorem State.display_sp (f : Framebuffer) : (s.display f).sp = s.sp := rfl
@[simp] theorem State.display_DT (f : Framebuffer) : (s.display f).DT = s.DT := rfl
@[simp] theorem State.display_ST (f : Framebuffer) : (s.display f).ST = s.ST := rfl
@[simp] theorem State.display_sndZero (f : Framebuffer) : (s.display f).sndZero = s.sndZero := rfl
@[simp] theorem State.display_dispWritten (f : Framebuffer) : (s.display f).dispWritten = true := rfl
@[simp] theorem State.display_fault (f : Framebuffer) : (s.display f).fault = s.fault := rfl
@[simp] theorem State.display_keyPrev (f : Framebuffer) : (s.display f).keyPrev = s.keyPrev := rfl
@[simp] theorem State.display_mem (f : Framebuffer) : (s.display f).mem = s.mem := rfl
@[simp] theorem State.display_fb (f : Framebuffer) : (s.display f).fb = f := rfl
@[simp] theorem State.display_inputs (f : Framebuffer) : (s.display f).inputs = s.inputs := rfl
@[simp] theorem State.display_draws (f : Framebuffer) : (s.display f).draws = s.draws := rfl

/-! ## `State.skipIf` -/

@[simp] theorem State.skipIf_V (c : Bool) : (s.skipIf c).V = s.V := rfl
@[simp] theorem State.skipIf_I (c : Bool) : (s.skipIf c).I = s.I := rfl
@[simp] theorem State.skipIf_pc (c : Bool) : (s.skipIf c).pc = if c then s.pc + 2 else s.pc := rfl
@[simp] theorem State.skipIf_stack (c : Bool) : (s.skipIf c).stack = s.stack := rfl
@[simp] theorem State.skipIf_sp (c : Bool) : (s.skipIf c).sp = s.sp := rfl
@[simp] theorem State.skipIf_DT (c : Bool) : (s.skipIf c).DT = s.DT := rfl
@[simp] theorem State.skipIf_ST (c : Bool) : (s.skipIf c).ST = s.ST := rfl
@[simp] theorem State.skipIf_sndZero (c : Bool) : (s.skipIf c).sndZero = s.sndZero := rfl
@[simp] theorem State.skipIf_dispWritten (c : Bool) : (s.skipIf c).dispWritten = s.dispWritten := rfl
@[simp] theorem State.skipIf_fault (c : Bool) : (s.skipIf c).fault = s.fault := rfl
@[simp] theorem State.skipIf_keyPrev (c : Bool) : (s.skipIf c).keyPrev = s.keyPrev := rfl
@[simp] theorem State.skipIf_mem (c : Bool) : (s.skipIf c).mem = s.mem := rfl
@[simp] theorem State.skipIf_fb (c : Bool) : (s.skipIf c).fb = s.fb := rfl
@[simp] theorem State.skipIf_inputs (c : Bool) : (s.skipIf c).inputs = s.inputs := rfl
@[simp] theorem State.skipIf_draws (c : Bool) : (s.skipIf c).draws = s.draws := rfl

/-! ## `State.enterFault` -/

@[simp] theorem State.enterFault_V (c : Cause) (p op : Word) : (s.enterFault c p op).V = s.V := rfl
@[simp] theorem State.enterFault_I (c : Cause) (p op : Word) : (s.enterFault c p op).I = s.I := rfl
@[simp] theorem State.enterFault_pc (c : Cause) (p op : Word) : (s.enterFault c p op).pc = p := rfl
@[simp] theorem State.enterFault_stack (c : Cause) (p op : Word) : (s.enterFault c p op).stack = s.stack := rfl
@[simp] theorem State.enterFault_sp (c : Cause) (p op : Word) : (s.enterFault c p op).sp = s.sp := rfl
@[simp] theorem State.enterFault_DT (c : Cause) (p op : Word) : (s.enterFault c p op).DT = s.DT := rfl
@[simp] theorem State.enterFault_ST (c : Cause) (p op : Word) : (s.enterFault c p op).ST = s.ST := rfl
@[simp] theorem State.enterFault_sndZero (c : Cause) (p op : Word) : (s.enterFault c p op).sndZero = false := rfl
@[simp] theorem State.enterFault_dispWritten (c : Cause) (p op : Word) : (s.enterFault c p op).dispWritten = false := rfl
@[simp] theorem State.enterFault_fault (c : Cause) (p op : Word) : (s.enterFault c p op).fault = { cause := c, pc := p, opcode := op } := rfl
@[simp] theorem State.enterFault_keyPrev (c : Cause) (p op : Word) : (s.enterFault c p op).keyPrev = s.keyPrev := rfl
@[simp] theorem State.enterFault_mem (c : Cause) (p op : Word) : (s.enterFault c p op).mem = s.mem := rfl
@[simp] theorem State.enterFault_fb (c : Cause) (p op : Word) : (s.enterFault c p op).fb = s.fb := rfl
@[simp] theorem State.enterFault_inputs (c : Cause) (p op : Word) : (s.enterFault c p op).inputs = s.inputs := rfl
@[simp] theorem State.enterFault_draws (c : Cause) (p op : Word) : (s.enterFault c p op).draws = s.draws := rfl

/-! ## `State.clearFlags` -/

@[simp] theorem State.clearFlags_V : s.clearFlags.V = s.V := rfl
@[simp] theorem State.clearFlags_I : s.clearFlags.I = s.I := rfl
@[simp] theorem State.clearFlags_pc : s.clearFlags.pc = s.pc := rfl
@[simp] theorem State.clearFlags_stack : s.clearFlags.stack = s.stack := rfl
@[simp] theorem State.clearFlags_sp : s.clearFlags.sp = s.sp := rfl
@[simp] theorem State.clearFlags_DT : s.clearFlags.DT = s.DT := rfl
@[simp] theorem State.clearFlags_ST : s.clearFlags.ST = s.ST := rfl
@[simp] theorem State.clearFlags_sndZero : s.clearFlags.sndZero = false := rfl
@[simp] theorem State.clearFlags_dispWritten : s.clearFlags.dispWritten = false := rfl
@[simp] theorem State.clearFlags_fault : s.clearFlags.fault = s.fault := rfl
@[simp] theorem State.clearFlags_keyPrev : s.clearFlags.keyPrev = s.keyPrev := rfl
@[simp] theorem State.clearFlags_mem : s.clearFlags.mem = s.mem := rfl
@[simp] theorem State.clearFlags_fb : s.clearFlags.fb = s.fb := rfl
@[simp] theorem State.clearFlags_inputs : s.clearFlags.inputs = s.inputs := rfl
@[simp] theorem State.clearFlags_draws : s.clearFlags.draws = s.draws := rfl

/-! ## `State.advance` -/

@[simp] theorem State.advance_V : s.advance.V = s.V := rfl
@[simp] theorem State.advance_I : s.advance.I = s.I := rfl
@[simp] theorem State.advance_pc : s.advance.pc = s.pc + 2 := rfl
@[simp] theorem State.advance_stack : s.advance.stack = s.stack := rfl
@[simp] theorem State.advance_sp : s.advance.sp = s.sp := rfl
@[simp] theorem State.advance_DT : s.advance.DT = s.DT := rfl
@[simp] theorem State.advance_ST : s.advance.ST = s.ST := rfl
@[simp] theorem State.advance_sndZero : s.advance.sndZero = s.sndZero := rfl
@[simp] theorem State.advance_dispWritten : s.advance.dispWritten = s.dispWritten := rfl
@[simp] theorem State.advance_fault : s.advance.fault = s.fault := rfl
@[simp] theorem State.advance_keyPrev : s.advance.keyPrev = s.keyPrev := rfl
@[simp] theorem State.advance_mem : s.advance.mem = s.mem := rfl
@[simp] theorem State.advance_fb : s.advance.fb = s.fb := rfl
@[simp] theorem State.advance_inputs : s.advance.inputs = s.inputs := rfl
@[simp] theorem State.advance_draws : s.advance.draws = s.draws := rfl

/-! ## `State.tick` -/

@[simp] theorem State.tick_V (due : Bool) : (s.tick due).V = s.V := rfl
@[simp] theorem State.tick_I (due : Bool) : (s.tick due).I = s.I := rfl
@[simp] theorem State.tick_pc (due : Bool) : (s.tick due).pc = s.pc := rfl
@[simp] theorem State.tick_stack (due : Bool) : (s.tick due).stack = s.stack := rfl
@[simp] theorem State.tick_sp (due : Bool) : (s.tick due).sp = s.sp := rfl
@[simp] theorem State.tick_DT (due : Bool) : (s.tick due).DT = if due then countDown s.DT else s.DT := rfl
@[simp] theorem State.tick_ST (due : Bool) : (s.tick due).ST = if due then countDown s.ST else s.ST := rfl
@[simp] theorem State.tick_sndZero (due : Bool) : (s.tick due).sndZero = (s.sndZero || (due && s.ST == 1)) := rfl
@[simp] theorem State.tick_dispWritten (due : Bool) : (s.tick due).dispWritten = s.dispWritten := rfl
@[simp] theorem State.tick_fault (due : Bool) : (s.tick due).fault = s.fault := rfl
@[simp] theorem State.tick_keyPrev (due : Bool) : (s.tick due).keyPrev = s.keyPrev := rfl
@[simp] theorem State.tick_mem (due : Bool) : (s.tick due).mem = s.mem := rfl
@[simp] theorem State.tick_fb (due : Bool) : (s.tick due).fb = s.fb := rfl
@[simp] theorem State.tick_inputs (due : Bool) : (s.tick due).inputs = s.inputs := rfl
@[simp] theorem State.tick_draws (due : Bool) : (s.tick due).draws = s.draws := rfl

/-! ## `State.latch` -/

@[simp] theorem State.latch_V (keys : BitVec 16) : (s.latch keys).V = s.V := rfl
@[simp] theorem State.latch_I (keys : BitVec 16) : (s.latch keys).I = s.I := rfl
@[simp] theorem State.latch_pc (keys : BitVec 16) : (s.latch keys).pc = s.pc := rfl
@[simp] theorem State.latch_stack (keys : BitVec 16) : (s.latch keys).stack = s.stack := rfl
@[simp] theorem State.latch_sp (keys : BitVec 16) : (s.latch keys).sp = s.sp := rfl
@[simp] theorem State.latch_DT (keys : BitVec 16) : (s.latch keys).DT = s.DT := rfl
@[simp] theorem State.latch_ST (keys : BitVec 16) : (s.latch keys).ST = s.ST := rfl
@[simp] theorem State.latch_sndZero (keys : BitVec 16) : (s.latch keys).sndZero = s.sndZero := rfl
@[simp] theorem State.latch_dispWritten (keys : BitVec 16) : (s.latch keys).dispWritten = s.dispWritten := rfl
@[simp] theorem State.latch_fault (keys : BitVec 16) : (s.latch keys).fault = s.fault := rfl
@[simp] theorem State.latch_keyPrev (keys : BitVec 16) : (s.latch keys).keyPrev = keys := rfl
@[simp] theorem State.latch_mem (keys : BitVec 16) : (s.latch keys).mem = s.mem := rfl
@[simp] theorem State.latch_fb (keys : BitVec 16) : (s.latch keys).fb = s.fb := rfl
@[simp] theorem State.latch_inputs (keys : BitVec 16) : (s.latch keys).inputs = s.inputs := rfl
@[simp] theorem State.latch_draws (keys : BitVec 16) : (s.latch keys).draws = s.draws := rfl

/-! ## `State.nextInput` (a case on the queue) -/

@[simp] theorem State.nextInput_V : s.nextInput.V = s.V := by unfold State.nextInput; cases s.inputs <;> rfl
@[simp] theorem State.nextInput_I : s.nextInput.I = s.I := by unfold State.nextInput; cases s.inputs <;> rfl
@[simp] theorem State.nextInput_pc : s.nextInput.pc = s.pc := by unfold State.nextInput; cases s.inputs <;> rfl
@[simp] theorem State.nextInput_stack : s.nextInput.stack = s.stack := by unfold State.nextInput; cases s.inputs <;> rfl
@[simp] theorem State.nextInput_sp : s.nextInput.sp = s.sp := by unfold State.nextInput; cases s.inputs <;> rfl
@[simp] theorem State.nextInput_DT : s.nextInput.DT = s.DT := by unfold State.nextInput; cases s.inputs <;> rfl
@[simp] theorem State.nextInput_ST : s.nextInput.ST = s.ST := by unfold State.nextInput; cases s.inputs <;> rfl
@[simp] theorem State.nextInput_sndZero : s.nextInput.sndZero = s.sndZero := by unfold State.nextInput; cases s.inputs <;> rfl
@[simp] theorem State.nextInput_dispWritten : s.nextInput.dispWritten = s.dispWritten := by unfold State.nextInput; cases s.inputs <;> rfl
@[simp] theorem State.nextInput_fault : s.nextInput.fault = s.fault := by unfold State.nextInput; cases s.inputs <;> rfl
@[simp] theorem State.nextInput_keyPrev : s.nextInput.keyPrev = s.keyPrev := by unfold State.nextInput; cases s.inputs <;> rfl
@[simp] theorem State.nextInput_mem : s.nextInput.mem = s.mem := by unfold State.nextInput; cases s.inputs <;> rfl
@[simp] theorem State.nextInput_fb : s.nextInput.fb = s.fb := by unfold State.nextInput; cases s.inputs <;> rfl

/-! ## Registers -/

/-- Reading back a written register, and every other register (R20). -/
@[simp] theorem State.reg_setReg (r r' : RegNo) (b : Byte) : (s.setReg r b).reg r' = if r' = r then b else s.reg r' := by
  unfold State.reg State.setReg
  simp only [Vector.getElem_set, Fin.ext_iff]
  by_cases h : r.val = r'.val
  · simp [h]
  · simp [h, Ne.symm h]

/-- The registers depend on `V` alone. -/
theorem State.reg_congr {s t : State} (h : t.V = s.V) (r : RegNo) : t.reg r = s.reg r := by unfold State.reg; rw [h]

@[simp] theorem State.reg_setPc (t : Word) (r : RegNo) : (s.setPc t).reg r = s.reg r := rfl
@[simp] theorem State.reg_setI (v : Word) (r : RegNo) : (s.setI v).reg r = s.reg r := rfl
@[simp] theorem State.reg_setDT (v : Byte) (r : RegNo) : (s.setDT v).reg r = s.reg r := rfl
@[simp] theorem State.reg_setST (v : Byte) (r : RegNo) : (s.setST v).reg r = s.reg r := rfl
@[simp] theorem State.reg_display (f : Framebuffer) (r : RegNo) : (s.display f).reg r = s.reg r := rfl
@[simp] theorem State.reg_skipIf (c : Bool) (r : RegNo) : (s.skipIf c).reg r = s.reg r := rfl
@[simp] theorem State.reg_enterFault (c : Cause) (p op : Word) (r : RegNo) : (s.enterFault c p op).reg r = s.reg r := rfl
@[simp] theorem State.reg_clearFlags (r : RegNo) : s.clearFlags.reg r = s.reg r := rfl
@[simp] theorem State.reg_advance (r : RegNo) : s.advance.reg r = s.reg r := rfl
@[simp] theorem State.reg_tick (due : Bool) (r : RegNo) : (s.tick due).reg r = s.reg r := rfl
@[simp] theorem State.reg_latch (keys : BitVec 16) (r : RegNo) : (s.latch keys).reg r = s.reg r := rfl
@[simp] theorem State.reg_nextInput (r : RegNo) : s.nextInput.reg r = s.reg r := State.reg_congr (by simp) r

/-! ## The step inputs -/

/-- The inputs of a step depend on the queue and the count alone. -/
theorem State.input_congr {s t : State} (h : t.inputs = s.inputs) (h' : t.draws = s.draws) : t.input = s.input := by
  unfold State.input; rw [h, h']

/-- With a queue, the inputs of the coming step are its head. -/
theorem State.input_cons {i : StepIn} {rest : List StepIn} (h : s.inputs = i :: rest) : s.input = i := by
  unfold State.input; rw [h]

/-- The machine is halted exactly when a cause is recorded (R31). -/
theorem State.halted_iff : s.halted = true ↔ s.fault.cause ≠ .running := by unfold State.halted; simp

/-- The machine runs exactly when no cause is recorded (R31). -/
theorem State.not_halted_iff : s.halted = false ↔ s.fault.cause = .running := by unfold State.halted; simp

end Sys2Proof.Machine
end

