-- ==== Sys2Proof/Laws/Ops.lean ====
section
/-! SUPPORT. One lemma per shared operation that says everything it can do: range-checked accesses, the framebuffer, the
keypad, the stack, faults, the phases around execution. Later proofs cite these and do not unfold the operations. -/

namespace Sys2Proof.Machine

/-! ## Range-checked accesses (R52, R53) -/

/-- The range check as arithmetic. -/
theorem inMemory_iff (a n : Nat) : inMemory a n = true ↔ n = 0 ∨ a + n ≤ Config.memSize := by
  unfold inMemory; simp

/-- The range check fails as arithmetic. -/
theorem inMemory_false_iff (a n : Nat) : inMemory a n = false ↔ 0 < n ∧ Config.memSize < a + n := by
  rw [← Bool.not_eq_true, inMemory_iff]; omega

/-- `MemRead` answers exactly the bytes below `MEM_SIZE`. -/
theorem State.memRead?_eq (s : State) (a : Nat) :
    s.memRead? a = if a < Config.memSize then some (s.mem.read a) else none := by
  unfold State.memRead?
  by_cases h : a < Config.memSize
  · rw [if_pos h, if_pos ((inMemory_iff a 1).mpr (by omega))]
  · rw [if_neg h, if_neg (by rw [inMemory_iff]; omega)]

/-- A block read answers its bytes, in ascending order, exactly when the whole range is in memory. -/
theorem State.loadBytes?_eq_some {s : State} {a n : Nat} {bs : List Byte} :
    s.loadBytes? a n = some bs ↔ inMemory a n = true ∧ bs = (List.range n).map (fun k => s.mem.read (a + k)) := by
  unfold State.loadBytes?; split <;> simp [*, eq_comm]

/-- A block read fails exactly when some address is out of range. -/
theorem State.loadBytes?_eq_none {s : State} {a n : Nat} : s.loadBytes? a n = none ↔ inMemory a n = false := by
  unfold State.loadBytes?; split <;> simp [*]

/-- A block write succeeds exactly when the whole range is in memory, and changes memory alone. -/
theorem State.storeBytes?_eq_some {s t : State} {a : Nat} {bs : List Byte} :
    s.storeBytes? a bs = some t ↔ inMemory a bs.length = true ∧ t = { s with mem := s.mem.writeList a bs } := by
  unfold State.storeBytes?; split <;> simp [*, eq_comm]

/-- A block write fails exactly when some address is out of range. -/
theorem State.storeBytes?_eq_none {s : State} {a : Nat} {bs : List Byte} :
    s.storeBytes? a bs = none ↔ inMemory a bs.length = false := by
  unfold State.storeBytes?; split <;> simp [*]

/-- A block write keeps memory canonical. -/
theorem State.storeBytes?_wf {s t : State} {a : Nat} {bs : List Byte} (h : s.storeBytes? a bs = some t) (hm : s.mem.wf) :
    t.mem.wf := by
  obtain ⟨hr, rfl⟩ := State.storeBytes?_eq_some.mp h
  rcases (inMemory_iff _ _).mp hr with h0 | hle
  · rw [List.length_eq_zero_iff.mp h0]; exact hm
  · exact Memory.wf_writeList hm hle

/-- The fetch answers the big-endian word at `pc` exactly when both bytes are in memory (R55, R85). -/
theorem State.fetch?_eq (s : State) :
    s.fetch? = if s.pc.toNat + 1 < Config.memSize
      then some (Word.ofBytes (s.mem.read s.pc.toNat) (s.mem.read (s.pc.toNat + 1))) else none := by
  unfold State.fetch?
  rw [State.memRead?_eq, State.memRead?_eq]
  by_cases h : s.pc.toNat + 1 < Config.memSize
  · rw [if_pos h, if_pos (by omega), if_pos h]
  · rw [if_neg h, if_neg h]; split <;> simp_all

/-- The fetch depends on `pc` and memory alone. -/
theorem State.fetch?_congr {s t : State} (hp : t.pc = s.pc) (hm : t.mem = s.mem) : t.fetch? = s.fetch? := by
  rw [State.fetch?_eq, State.fetch?_eq, hp, hm]

/-! ## Block registers -/

/-- The stored registers are `X + 1` many. -/
@[simp] theorem State.blockRegs_length (s : State) (x : RegNo) : (s.blockRegs x).length = x.val + 1 := by
  unfold State.blockRegs blockCount; have := x.isLt; simp

/-- The stored registers are `V0, V1, ...` in order. -/
theorem State.blockRegs_getElem (s : State) (x : RegNo) (k : Nat) (h : k < (s.blockRegs x).length) :
    (s.blockRegs x)[k] = s.reg ⟨k, by have := s.blockRegs_length x; have := x.isLt; omega⟩ := by
  simp only [State.blockRegs, State.reg, List.getElem_take, Vector.getElem_toList]

/-- A run of register writes from `k` puts byte `r - k` of the run into register `r`, and leaves the registers outside. -/
theorem setRegsFrom_getElem (v : Vector Byte 16) (k : Nat) (bs : List Byte) (r : Nat) (hr : r < 16) :
    (setRegsFrom v k bs)[r] = if h : k ≤ r ∧ r - k < bs.length then bs[r - k]'h.2 else v[r] := by
  induction bs generalizing v k with
  | nil => simp [setRegsFrom]
  | cons b rest ih =>
    simp only [setRegsFrom, ih, List.length_cons, Vector.getElem_setIfInBounds]
    by_cases h1 : k + 1 ≤ r ∧ r - (k + 1) < rest.length
    · have h2 : k ≤ r ∧ r - k < rest.length + 1 := by omega
      have h3 : r - k = (r - (k + 1)) + 1 := by omega
      simp [h1, h2, h3]
    · by_cases hk : k = r
      · subst hk; simp
      · have h2 : ¬ (k ≤ r ∧ r - k < rest.length + 1) := by omega
        rw [dif_neg h1, dif_neg h2, if_neg hk]

/-- Reading a register after `setRegs`. -/
theorem State.reg_setRegs (s : State) (bs : List Byte) (r : RegNo) :
    (s.setRegs bs).reg r = if h : r.val < bs.length then bs[r.val] else s.reg r := by
  unfold State.reg State.setRegs
  simp only [setRegsFrom_getElem, Nat.zero_le, true_and, Nat.sub_zero]

/-! ## Framebuffer (R62) -/

/-- One pixel of a row after `setPixel`. -/
theorem setPixel_getLsbD (row : BitVec Config.fbWidth) (k j : Nat) (b : Bool) (hk : k < Config.fbWidth) :
    (setPixel row k b).getLsbD j = if j = k then b else row.getLsbD j := by
  unfold setPixel
  by_cases hj : j = k
  · subst hj; cases b <;> simp [hk]
  · cases b
    · by_cases hw : j < Config.fbWidth
      · simp [hj, hw]
      · simp [hj, BitVec.getLsbD_of_ge _ _ (Nat.le_of_not_lt hw)]
    · simp [hj, Ne.symm hj]

/-- A pixel read after a pixel write: the new value at the same pixel modulo the screen, the old one elsewhere (R62). -/
theorem Framebuffer.read_write (f : Framebuffer) (x y x' y' : Nat) (b : Bool) :
    (f.write x y b).read x' y' = if wrapX x' = wrapX x ∧ wrapY y' = wrapY y then b else f.read x' y' := by
  have hx : wrapX x < Config.fbWidth := Nat.mod_lt _ (by decide)
  unfold Framebuffer.write Framebuffer.read
  by_cases hy : wrapY y' = wrapY y
  · simp only [hy, Vector.getElem_set_self, setPixel_getLsbD _ _ _ _ hx, and_true]
  · have hne : ¬ (wrapY y).val = (wrapY y').val := fun h => hy (Fin.ext h.symm)
    simp only [Vector.getElem_set_ne _ _ hne, hy, and_false, if_false]

/-- A cleared framebuffer is off everywhere. -/
@[simp] theorem Framebuffer.read_cleared (x y : Nat) : Framebuffer.cleared.read x y = false := by
  unfold Framebuffer.cleared Framebuffer.read; simp

/-- Two framebuffers that read alike inside the screen are the same. -/
theorem Framebuffer.ext_of_read {f g : Framebuffer}
    (h : ∀ x y, x < Config.fbWidth → y < Config.fbHeight → f.read x y = g.read x y) : f = g := by
  apply Vector.ext
  intro y hy
  apply BitVec.eq_of_getLsbD_eq
  intro x hx
  have hy' : (wrapY y).val = y := Nat.mod_eq_of_lt hy
  have hx' : wrapX x = x := Nat.mod_eq_of_lt hx
  have := h x y hx hy
  simpa only [Framebuffer.read, hy', hx'] using this

/-! ## Keypad -/

/-- The key number of a register is its value, where that is a key (R160). -/
theorem State.keyNumber?_eq_some {s : State} {x k : RegNo} :
    s.keyNumber? x = some k ↔ (s.reg x).toNat = k.val := by
  unfold State.keyNumber?
  split
  · simp [Fin.ext_iff]
  · have := k.isLt; simp; omega

/-- A register holds no key number exactly above 15 (R160). -/
theorem State.keyNumber?_eq_none {s : State} {x : RegNo} : s.keyNumber? x = none ↔ 15 < (s.reg x).toNat := by
  unfold State.keyNumber?; split <;> simp <;> omega

/-- A key level after `keySet`: the new one at that key, the old one elsewhere. -/
theorem keyGet_keySet (keys : BitVec 16) (k j : RegNo) (b : Bool) :
    keyGet (keySet keys k b) j = if j = k then b else keyGet keys j := by
  have hk := k.isLt
  have hj := j.isLt
  unfold keyGet keySet
  by_cases h : j = k
  · subst h; cases b <;> simp
  · have hv : ¬ j.val = k.val := fun e => h (Fin.ext e)
    cases b <;> simp [h, hv]

/-- The inputs of the coming step after the host supplied some: those, unless others are fixed before them. -/
theorem State.input_supply (s : State) (i : StepIn) : (s.supply i).input = if s.inputs = [] then i else s.input := by
  unfold State.supply State.input
  cases h : s.inputs <;> simp

/-- No key is found exactly when no bit is set (R162: `edge = 0`). -/
theorem lowestKey_eq_none {e : BitVec 16} : lowestKey e = none ↔ e = 0 := by
  unfold lowestKey
  simp only [List.find?_eq_none, List.mem_range]
  constructor
  · intro h
    apply BitVec.eq_of_getLsbD_eq
    intro k hk
    simpa using h k hk
  · rintro rfl; simp

/-- The key found has its bit set, and none below it has (R162). -/
theorem lowestKey_eq_some {e : BitVec 16} {k : Nat} :
    lowestKey e = some k ↔ k < 16 ∧ e.getLsbD k = true ∧ ∀ j < k, e.getLsbD j = false := by
  unfold lowestKey
  rw [List.find?_range_eq_some]
  simp only [Bool.not_eq_true', List.mem_range]
  tauto

/-! ## Call stack -/

/-- A push fails exactly with the stack full (R103). -/
theorem State.push?_eq_none {s : State} {a : Word} : s.push? a = none ↔ s.sp.val = Config.stackDepth := by
  have := s.sp.isLt
  unfold State.push?; split <;> simp <;> omega

/-- What a push does (R103): the entry at `sp`, and `sp` one up. -/
theorem State.push?_eq_some {s t : State} {a : Word} :
    s.push? a = some t ↔ ∃ h : s.sp.val < Config.stackDepth,
      t = { s with stack := s.stack.set s.sp.val a h, sp := ⟨s.sp.val + 1, Nat.succ_lt_succ h⟩ } := by
  unfold State.push?; split <;> simp [*, eq_comm]

/-- A pop fails exactly with the stack empty (R101). -/
theorem State.pop?_eq_none {s : State} : s.pop? = none ↔ s.sp.val = 0 := by
  unfold State.pop?
  split
  · rename_i h; simp only [reduceCtorEq, false_iff]; omega
  · rename_i h; simp only [true_iff]; omega

/-- What a pop does (R101): `sp` one down, the entry there answered and kept. -/
theorem State.pop?_eq_some {s t : State} {a : Word} :
    s.pop? = some (a, t) ↔ ∃ (_ : 0 < s.sp.val) (hk : s.sp.val - 1 < Config.stackDepth),
      a = s.stack[s.sp.val - 1] ∧ t = { s with sp := ⟨s.sp.val - 1, Nat.lt_succ_of_lt hk⟩ } := by
  unfold State.pop?
  have hlt := s.sp.isLt
  split
  · rename_i h
    have hk : s.sp.val - 1 < Config.stackDepth := by omega
    simp only [Option.some.injEq, Prod.mk.injEq]
    constructor
    · rintro ⟨rfl, rfl⟩; exact ⟨h, hk, rfl, rfl⟩
    · rintro ⟨_, _, rfl, rfl⟩; exact ⟨rfl, rfl⟩
  · rename_i h
    simp [h]

/-! ## Faults and the phases around execution -/

/-- Raising a fault in the execute phase is fault entry at the instruction's own address (R188). -/
theorem State.raise_eq (s : State) (c : Cause) (i : Instr) :
    s.raise c i = .next (s.enterFault c (s.pc - 2) (encode i)) := rfl

/-- After fault entry with a cause the core is halted. -/
theorem State.halted_enterFault (s : State) {c : Cause} (hc : c ≠ .running) (p op : Word) :
    (s.enterFault c p op).halted = true := by simpa [State.halted] using hc

/-- A halted state is finished as it is (R188). -/
theorem State.finish_halted {s : State} (h : s.halted = true) : s.finish = s := by
  unfold State.finish; rw [if_pos h]

/-- A running state is finished by phases 4 and 5 (R84). -/
theorem State.finish_running {s : State} (h : s.halted = false) :
    s.finish = ((s.tick s.input.tickDue).latch s.input.keys).nextInput := by
  unfold State.finish; rw [if_neg (by simp [h])]

/-- Finishing touches neither the registers, `pc`, `I`, the stack, the fault record, memory nor the picture. -/
theorem State.finish_keeps (s : State) :
    s.finish.V = s.V ∧ s.finish.pc = s.pc ∧ s.finish.I = s.I ∧ s.finish.stack = s.stack ∧ s.finish.sp = s.sp ∧
    s.finish.fault = s.fault ∧ s.finish.mem = s.mem ∧ s.finish.fb = s.fb ∧ s.finish.dispWritten = s.dispWritten := by
  unfold State.finish; split <;> simp

/-- A counted-down timer as a natural number: one less, and zero at zero (R194). -/
theorem countDown_toNat (t : Byte) : (countDown t).toNat = t.toNat - 1 := by
  unfold countDown
  split
  · simp [*]
  · rename_i h
    have : t.toNat ≠ 0 := fun h0 => h (BitVec.eq_of_toNat_eq (by simpa using h0))
    have := t.isLt
    rw [BitVec.toNat_sub]; simp; omega

end Sys2Proof.Machine
end

