-- ==== Sys2Proof/Laws/Display.lean ====
section
/-! SUPPORT. What drawing a sprite row and a run of sprite rows does, pixel by pixel, and what the collision flag of it says
(spec/44_display.md R151, R152). -/

namespace Sys2Proof.Machine

/-- The distance from column `vx` to column `px`, to the right and around the edge. -/
def colFrom (vx px : Nat) : Nat := (px + 64 - vx % 64) % 64

/-- The distance from row `y` to row `py`, downward and around the edge. -/
def rowFrom (y py : Nat) : Nat := (py + 32 - y % 32) % 32

/-- Column `col` of a sprite row falls on the screen column at that distance from its start. -/
theorem wrapX_eq_iff_colFrom (vx px col : Nat) (hp : px < 64) (hc : col < 64) :
    wrapX px = wrapX (vx + col) ↔ colFrom vx px = col := by
  unfold wrapX colFrom Config.fbWidth; omega

/-- Row `row` of a sprite falls on the screen row at that distance from its start. -/
theorem wrapY_eq_iff_rowFrom (y py row : Nat) (hp : py < 32) (hr : row < 32) :
    wrapY py = wrapY (y + row) ↔ rowFrom y py = row := by
  unfold wrapY rowFrom Config.fbHeight; rw [Fin.mk.injEq]; omega

/-- The first `n` columns of a sprite row. -/
def drawCols (vx y : Nat) (b : Byte) (n : Nat) (acc : Framebuffer × Bool) : Framebuffer × Bool :=
  (List.range n).foldl (drawPixel vx y b) acc

theorem drawCols_succ (vx y : Nat) (b : Byte) (n : Nat) (acc : Framebuffer × Bool) :
    drawCols vx y b (n + 1) acc = drawPixel vx y b (drawCols vx y b n acc) n := by
  unfold drawCols; rw [List.range_succ, List.foldl_append]; rfl

/-- A pixel after the first `n` columns of a row. -/
theorem drawCols_read (vx y : Nat) (b : Byte) (acc : Framebuffer × Bool) (px py n : Nat) (hp : px < 64) (hn : n ≤ 64) :
    (drawCols vx y b n acc).1.read px py =
      (acc.1.read px py ^^
        (decide (wrapY py = wrapY y) && decide (colFrom vx px < n) && spriteBit b (colFrom vx px))) := by
  induction n with
  | zero => simp [drawCols]
  | succ n ih =>
    rw [drawCols_succ]
    simp only [drawPixel, Framebuffer.read_write]
    have ih' := ih (by omega)
    by_cases hx : wrapX px = wrapX (vx + n) ∧ wrapY py = wrapY y
    · rw [if_pos hx]
      have hc := (wrapX_eq_iff_colFrom vx px n hp (by omega)).mp hx.1
      have hsame : (drawCols vx y b n acc).1.read (vx + n) y = (drawCols vx y b n acc).1.read px py := by
        unfold Framebuffer.read; simp only [← hx.1, ← hx.2]
      rw [hsame, ih']
      simp [hx.2, hc]
    · rw [if_neg hx, ih']
      by_cases hy : wrapY py = wrapY y
      · have hc : colFrom vx px ≠ n := fun h => hx ⟨(wrapX_eq_iff_colFrom vx px n hp (by omega)).mpr h, hy⟩
        have : colFrom vx px < n + 1 ↔ colFrom vx px < n := by omega
        simp only [this]
      · simp [hy]

/-- A pixel after a sprite row. -/
theorem drawRow_read (vx y : Nat) (b : Byte) (acc : Framebuffer × Bool) (px py : Nat) (hp : px < 64) :
    (drawRow vx y b acc).1.read px py =
      (acc.1.read px py ^^
        (decide (wrapY py = wrapY y) && decide (colFrom vx px < 8) && spriteBit b (colFrom vx px))) :=
  drawCols_read vx y b acc px py 8 hp (by omega)

/-- The collision flag after the first `n` columns of a row: up before, or some column's bit meets a pixel that was on. -/
theorem drawCols_collision (vx y : Nat) (b : Byte) (acc : Framebuffer × Bool) (n : Nat) (hn : n ≤ 64) :
    (drawCols vx y b n acc).2 = true ↔
      acc.2 = true ∨ ∃ col, col < n ∧ acc.1.read (vx + col) y = true ∧ spriteBit b col = true := by
  induction n with
  | zero => simp [drawCols]
  | succ n ih =>
    have hread : (drawCols vx y b n acc).1.read (vx + n) y = acc.1.read (vx + n) y := by
      have hw : ∀ f : Framebuffer, f.read (vx + n) y = f.read ((vx + n) % 64) y := by
        intro f; simp [Framebuffer.read, wrapX]
      have hc : colFrom vx ((vx + n) % 64) = n := by unfold colFrom; omega
      rw [hw, hw acc.1, drawCols_read vx y b acc _ y n (by omega) (by omega), hc]
      simp
    rw [drawCols_succ]
    simp only [drawPixel, hread, Bool.or_eq_true, Bool.and_eq_true, ih (by omega)]
    constructor
    · rintro ((h | ⟨c, h1, h2⟩) | h)
      · exact Or.inl h
      · exact Or.inr ⟨c, by omega, h2⟩
      · exact Or.inr ⟨n, by omega, h⟩
    · rintro (h | ⟨c, h1, h2⟩)
      · exact Or.inl (Or.inl h)
      · by_cases hcn : c = n
        · subst hcn; exact Or.inr h2
        · exact Or.inl (Or.inr ⟨c, by omega, h2⟩)

/-- The collision flag after a sprite row. -/
theorem drawRow_collision (vx y : Nat) (b : Byte) (acc : Framebuffer × Bool) :
    (drawRow vx y b acc).2 = true ↔
      acc.2 = true ∨ ∃ col, col < 8 ∧ acc.1.read (vx + col) y = true ∧ spriteBit b col = true :=
  drawCols_collision vx y b acc 8 (by omega)

/-- A pixel after a run of at most 32 sprite rows: XORed with the one sprite bit that falls on it, if any. -/
theorem drawRows_read (vx y : Nat) (rows : List Byte) (acc : Framebuffer × Bool) (px py : Nat) (hp : px < 64) (hq : py < 32)
    (hr : rows.length ≤ 32) :
    (drawRows vx y rows acc).1.read px py =
      (acc.1.read px py ^^
        (decide (colFrom vx px < 8) && decide (rowFrom y py < rows.length) &&
          spriteBit (rows.getD (rowFrom y py) 0) (colFrom vx px))) := by
  induction rows generalizing y acc with
  | nil => simp [drawRows]
  | cons b rest ih =>
    simp only [List.length_cons] at hr
    rw [drawRows, ih (y + 1) _ (by omega), drawRow_read _ _ _ _ _ _ hp]
    have h0 := wrapY_eq_iff_rowFrom y py 0 hq (by omega)
    simp only [Nat.add_zero] at h0
    by_cases hz : rowFrom y py = 0
    · have h1 : ¬ rowFrom (y + 1) py < rest.length := by unfold rowFrom at *; omega
      have h2 := h0.mpr hz
      simp [h1, h2, hz]
    · have h2 : ¬ wrapY py = wrapY y := fun h => hz (h0.mp h)
      have h1 : rowFrom y py = rowFrom (y + 1) py + 1 := by unfold rowFrom at *; omega
      simp [h1, h2]

/-- The collision flag after a run of at most 32 sprite rows: up before, or some bit meets a pixel that was on before the
first row was drawn. -/
theorem drawRows_collision (vx y : Nat) (rows : List Byte) (acc : Framebuffer × Bool) (hr : rows.length ≤ 32) :
    (drawRows vx y rows acc).2 = true ↔
      acc.2 = true ∨ ∃ col row, col < 8 ∧ row < rows.length ∧ acc.1.read (vx + col) (y + row) = true ∧
        spriteBit (rows.getD row 0) col = true := by
  induction rows generalizing y acc with
  | nil => simp [drawRows]
  | cons b rest ih =>
    simp only [List.length_cons] at hr ⊢
    have hread : ∀ col row, row < rest.length →
        (drawRow vx y b acc).1.read (vx + col) (y + 1 + row) = acc.1.read (vx + col) (y + 1 + row) := by
      intro col row h
      have hw : ∀ f : Framebuffer, f.read (vx + col) (y + 1 + row) = f.read ((vx + col) % 64) (y + 1 + row) := by
        intro f; simp [Framebuffer.read, wrapX]
      have hy : ¬ wrapY (y + 1 + row) = wrapY y := by unfold wrapY Config.fbHeight; rw [Fin.mk.injEq]; omega
      rw [hw, hw acc.1, drawRow_read _ _ _ _ _ _ (by omega)]
      simp [hy]
    rw [drawRows, ih (y + 1) _ (by omega), drawRow_collision]
    constructor
    · rintro ((h | ⟨c, hc, h1, h2⟩) | ⟨c, r, hc, hr', h1, h2⟩)
      · exact Or.inl h
      · exact Or.inr ⟨c, 0, hc, by omega, h1, by simpa using h2⟩
      · rw [hread c r hr'] at h1
        exact Or.inr ⟨c, r + 1, hc, by omega, by rw [← Nat.add_assoc, Nat.add_right_comm]; exact h1, by simpa using h2⟩
    · rintro (h | ⟨c, r, hc, hr', h1, h2⟩)
      · exact Or.inl (Or.inl h)
      · cases r with
        | zero => exact Or.inl (Or.inr ⟨c, hc, h1, by simpa using h2⟩)
        | succ r =>
          refine Or.inr ⟨c, r, hc, by omega, ?_, by simpa using h2⟩
          rw [hread c r (by omega), Nat.add_right_comm, Nat.add_assoc]; exact h1

end Sys2Proof.Machine
end

