-- ==== Sys2Proof/Laws/Flags.lean ====
section
/-! SUPPORT. The arithmetic of spec/42_alu.md R132 as numbers, what the two write orders of `VF` leave (R133), and the operand
forms as numbers. -/

namespace Sys2Proof.Machine

/-! ## Arithmetic (R132) -/

theorem wrapSum_toNat (a b : Byte) : (wrapSum a b).toNat = (a.toNat + b.toNat) % 256 := by simp [wrapSum, exactSum]

theorem wrapSum_eq_add (a b : Byte) : wrapSum a b = a + b := by
  apply BitVec.eq_of_toNat_eq; rw [wrapSum_toNat, BitVec.toNat_add]

theorem wrapDiff_eq_sub (a b : Byte) : wrapDiff a b = a - b := by
  have := a.isLt
  have := b.isLt
  apply BitVec.eq_of_toNat_eq
  unfold wrapDiff
  rw [BitVec.toNat_ofInt, BitVec.toNat_sub]; omega

theorem wrapDiff_toNat (a b : Byte) : (wrapDiff a b).toNat = (a.toNat + 256 - b.toNat) % 256 := by
  have := b.isLt
  rw [wrapDiff_eq_sub, BitVec.toNat_sub]; omega

/-- The carry is the ninth bit of the exact sum. -/
theorem carryFlag_toNat (a b : Byte) : (carryFlag a b).toNat = (a.toNat + b.toNat) / 256 := by
  have := a.isLt
  have := b.isLt
  unfold carryFlag exactSum
  split <;> simp <;> omega

theorem shiftedOutRight_toNat (v : Byte) : (shiftedOutRight v).toNat = v.toNat % 2 := by
  simp [shiftedOutRight, Nat.and_one_is_mod]

theorem shiftedOutLeft_toNat (v : Byte) : (shiftedOutLeft v).toNat = v.toNat / 128 := by
  have := v.isLt
  simp [shiftedOutLeft, Nat.and_one_is_mod, Nat.shiftRight_eq_div_pow]; omega

/-! ## The two write orders of `VF` (R133) -/

variable (s : State) (x r : RegNo)

/-- Result, then flag: `VF` holds the flag whichever register `x` is. -/
theorem State.reg_resultThenFlag (a f : Byte) :
    (s.resultThenFlag x a f).reg r = if r = 15 then f else if r = x then a else s.reg r := by
  unfold State.resultThenFlag vf; simp only [State.reg_setReg]

/-- Flag, then shift: with `x` other than `VF` the old `VX` is shifted, with `x = VF` the flag just written. -/
theorem State.reg_flagThenShift (f : Byte) (shift : Byte → Byte) :
    (s.flagThenShift x f shift).reg r =
      if r = x then shift (if x = 15 then f else s.reg x) else if r = 15 then f else s.reg r := by
  unfold State.flagThenShift vf; simp only [State.reg_setReg]

/-! ## Operand forms -/

theorem zextNNN_toNat (nnn : BitVec 12) : (zextNNN nnn).toNat = nnn.toNat := by
  have := nnn.isLt
  unfold zextNNN; rw [BitVec.toNat_setWidth]; omega

theorem zextByte_toNat (b : Byte) : (zextByte b).toNat = b.toNat := by
  have := b.isLt
  unfold zextByte; rw [BitVec.toNat_setWidth]; omega

theorem fontAddr_toNat (v : Byte) : (fontAddr v).toNat = 5 * v.toNat := by
  have := v.isLt
  unfold fontAddr Config.fontBase Config.fontStride; rw [BitVec.toNat_ofNat]; omega

theorem State.blockNextI_toNat : (s.blockNextI x).toNat = (s.I.toNat + x.val + 1) % 65536 := by
  have := x.isLt
  unfold State.blockNextI blockCount; rw [BitVec.toNat_add, BitVec.toNat_ofNat]; omega

theorem bcdDigits_toNat (v : Byte) : (bcdDigits v).map BitVec.toNat = [v.toNat / 100, v.toNat / 10 % 10, v.toNat % 10] := by
  have := v.isLt
  simp only [bcdDigits, List.map, BitVec.toNat_ofNat]
  congr 1
  · omega
  · congr 1
    · omega
    · congr 1; omega

end Sys2Proof.Machine
end

