-- ==== Sys2Proof/Laws/PerInstr.lean ====
section
/-! SUPPORT. Per-instruction statements about the syntax. Family `TableRow`: the word of every instruction lies in the
instruction's own row of the opcode table of spec/30_encoding.md R87, and the row's operand fields give the instruction
back. -/

namespace Sys2Proof.Laws

/-- The place of each instruction's row in R87, from 0. -/
def rowNumber : Instr → Nat
  | .cls => 0
  | .ret => 1
  | .sys _ => 2
  | .jp _ => 3
  | .call _ => 4
  | .seImm _ _ => 5
  | .sneImm _ _ => 6
  | .seReg _ _ => 7
  | .ldImm _ _ => 8
  | .addImm _ _ => 9
  | .ldReg _ _ => 10
  | .orReg _ _ => 11
  | .andReg _ _ => 12
  | .xorReg _ _ => 13
  | .addReg _ _ => 14
  | .sub _ _ => 15
  | .shr _ _ => 16
  | .subn _ _ => 17
  | .shl _ _ => 18
  | .sneReg _ _ => 19
  | .ldI _ => 20
  | .jpV0 _ => 21
  | .rnd _ _ => 22
  | .drw _ _ _ => 23
  | .skp _ => 24
  | .sknp _ => 25
  | .ldVxDt _ => 26
  | .ldVxK _ => 27
  | .ldDtVx _ => 28
  | .ldStVx _ => 29
  | .addI _ => 30
  | .ldF _ => 31
  | .ldB _ => 32
  | .storeRegs _ => 33
  | .loadRegs _ => 34

/-- The instruction's word matches the instruction's row (`op & mask = match`), and the row reads the instruction from it. -/
def TableRow.Statement (i : Instr) : Prop :=
  ∃ r, opcodeTable[rowNumber i]? = some r ∧ encode i &&& r.mask = r.bits ∧ r.build (encode i) = i

/-- How a row of the table is found to fit. -/
theorem TableRow.intro {i : Instr} (r : OpcodeRow) (hr : opcodeTable[rowNumber i]? = some r)
    (hm : encode i &&& r.mask = r.bits) (hb : r.build (encode i) = i) : TableRow.Statement i := ⟨r, hr, hm, hb⟩

theorem TableRow.cls : TableRow.Statement .cls := TableRow.intro _ rfl (by decide) rfl
theorem TableRow.ret : TableRow.Statement .ret := TableRow.intro _ rfl (by decide) rfl
theorem TableRow.sys (nnn : BitVec 12) : TableRow.Statement (.sys nnn) := 
  TableRow.intro _ rfl (by simp only [encode, BitVec.ofNat_eq_ofNat, and_F000, famField_encodeNNN]; decide) (by simp [encode])
theorem TableRow.jp (nnn : BitVec 12) : TableRow.Statement (.jp nnn) := 
  TableRow.intro _ rfl (by simp only [encode, BitVec.ofNat_eq_ofNat, and_F000, famField_encodeNNN]; decide) (by simp [encode])
theorem TableRow.call (nnn : BitVec 12) : TableRow.Statement (.call nnn) := 
  TableRow.intro _ rfl (by simp only [encode, BitVec.ofNat_eq_ofNat, and_F000, famField_encodeNNN]; decide) (by simp [encode])
theorem TableRow.seImm (x : RegNo) (nn : Byte) : TableRow.Statement (.seImm x nn) := 
  TableRow.intro _ rfl (by simp only [encode, BitVec.ofNat_eq_ofNat, and_F000, famField_encodeXNN]; decide) (by simp [encode])
theorem TableRow.sneImm (x : RegNo) (nn : Byte) : TableRow.Statement (.sneImm x nn) := 
  TableRow.intro _ rfl (by simp only [encode, BitVec.ofNat_eq_ofNat, and_F000, famField_encodeXNN]; decide) (by simp [encode])
theorem TableRow.seReg (x y : RegNo) : TableRow.Statement (.seReg x y) := 
  TableRow.intro _ rfl (by simp only [encode, BitVec.ofNat_eq_ofNat, and_F00F, famField_encodeXYN, nField_encodeXYN]; decide) (by simp [encode])
theorem TableRow.ldImm (x : RegNo) (nn : Byte) : TableRow.Statement (.ldImm x nn) := 
  TableRow.intro _ rfl (by simp only [encode, BitVec.ofNat_eq_ofNat, and_F000, famField_encodeXNN]; decide) (by simp [encode])
theorem TableRow.addImm (x : RegNo) (nn : Byte) : TableRow.Statement (.addImm x nn) := 
  TableRow.intro _ rfl (by simp only [encode, BitVec.ofNat_eq_ofNat, and_F000, famField_encodeXNN]; decide) (by simp [encode])
theorem TableRow.ldReg (x y : RegNo) : TableRow.Statement (.ldReg x y) := 
  TableRow.intro _ rfl (by simp only [encode, BitVec.ofNat_eq_ofNat, and_F00F, famField_encodeXYN, nField_encodeXYN]; decide) (by simp [encode])
theorem TableRow.orReg (x y : RegNo) : TableRow.Statement (.orReg x y) := 
  TableRow.intro _ rfl (by simp only [encode, BitVec.ofNat_eq_ofNat, and_F00F, famField_encodeXYN, nField_encodeXYN]; decide) (by simp [encode])
theorem TableRow.andReg (x y : RegNo) : TableRow.Statement (.andReg x y) := 
  TableRow.intro _ rfl (by simp only [encode, BitVec.ofNat_eq_ofNat, and_F00F, famField_encodeXYN, nField_encodeXYN]; decide) (by simp [encode])
theorem TableRow.xorReg (x y : RegNo) : TableRow.Statement (.xorReg x y) := 
  TableRow.intro _ rfl (by simp only [encode, BitVec.ofNat_eq_ofNat, and_F00F, famField_encodeXYN, nField_encodeXYN]; decide) (by simp [encode])
theorem TableRow.addReg (x y : RegNo) : TableRow.Statement (.addReg x y) := 
  TableRow.intro _ rfl (by simp only [encode, BitVec.ofNat_eq_ofNat, and_F00F, famField_encodeXYN, nField_encodeXYN]; decide) (by simp [encode])
theorem TableRow.sub (x y : RegNo) : TableRow.Statement (.sub x y) := 
  TableRow.intro _ rfl (by simp only [encode, BitVec.ofNat_eq_ofNat, and_F00F, famField_encodeXYN, nField_encodeXYN]; decide) (by simp [encode])
theorem TableRow.shr (x y : RegNo) : TableRow.Statement (.shr x y) := 
  TableRow.intro _ rfl (by simp only [encode, BitVec.ofNat_eq_ofNat, and_F00F, famField_encodeXYN, nField_encodeXYN]; decide) (by simp [encode])
theorem TableRow.subn (x y : RegNo) : TableRow.Statement (.subn x y) := 
  TableRow.intro _ rfl (by simp only [encode, BitVec.ofNat_eq_ofNat, and_F00F, famField_encodeXYN, nField_encodeXYN]; decide) (by simp [encode])
theorem TableRow.shl (x y : RegNo) : TableRow.Statement (.shl x y) := 
  TableRow.intro _ rfl (by simp only [encode, BitVec.ofNat_eq_ofNat, and_F00F, famField_encodeXYN, nField_encodeXYN]; decide) (by simp [encode])
theorem TableRow.sneReg (x y : RegNo) : TableRow.Statement (.sneReg x y) := 
  TableRow.intro _ rfl (by simp only [encode, BitVec.ofNat_eq_ofNat, and_F00F, famField_encodeXYN, nField_encodeXYN]; decide) (by simp [encode])
theorem TableRow.ldI (nnn : BitVec 12) : TableRow.Statement (.ldI nnn) := 
  TableRow.intro _ rfl (by simp only [encode, BitVec.ofNat_eq_ofNat, and_F000, famField_encodeNNN]; decide) (by simp [encode])
theorem TableRow.jpV0 (nnn : BitVec 12) : TableRow.Statement (.jpV0 nnn) := 
  TableRow.intro _ rfl (by simp only [encode, BitVec.ofNat_eq_ofNat, and_F000, famField_encodeNNN]; decide) (by simp [encode])
theorem TableRow.rnd (x : RegNo) (nn : Byte) : TableRow.Statement (.rnd x nn) := 
  TableRow.intro _ rfl (by simp only [encode, BitVec.ofNat_eq_ofNat, and_F000, famField_encodeXNN]; decide) (by simp [encode])
theorem TableRow.drw (x y : RegNo) (n : BitVec 4) : TableRow.Statement (.drw x y n) := 
  TableRow.intro _ rfl (by simp only [encode, BitVec.ofNat_eq_ofNat, and_F000, famField_encodeXYN]; decide) (by simp [encode])
theorem TableRow.skp (x : RegNo) : TableRow.Statement (.skp x) := 
  TableRow.intro _ rfl (by simp only [encode, BitVec.ofNat_eq_ofNat, and_F0FF, famField_encodeXNN, nnField_encodeXNN]; decide) (by simp [encode])
theorem TableRow.sknp (x : RegNo) : TableRow.Statement (.sknp x) := 
  TableRow.intro _ rfl (by simp only [encode, BitVec.ofNat_eq_ofNat, and_F0FF, famField_encodeXNN, nnField_encodeXNN]; decide) (by simp [encode])
theorem TableRow.ldVxDt (x : RegNo) : TableRow.Statement (.ldVxDt x) := 
  TableRow.intro _ rfl (by simp only [encode, BitVec.ofNat_eq_ofNat, and_F0FF, famField_encodeXNN, nnField_encodeXNN]; decide) (by simp [encode])
theorem TableRow.ldVxK (x : RegNo) : TableRow.Statement (.ldVxK x) := 
  TableRow.intro _ rfl (by simp only [encode, BitVec.ofNat_eq_ofNat, and_F0FF, famField_encodeXNN, nnField_encodeXNN]; decide) (by simp [encode])
theorem TableRow.ldDtVx (x : RegNo) : TableRow.Statement (.ldDtVx x) := 
  TableRow.intro _ rfl (by simp only [encode, BitVec.ofNat_eq_ofNat, and_F0FF, famField_encodeXNN, nnField_encodeXNN]; decide) (by simp [encode])
theorem TableRow.ldStVx (x : RegNo) : TableRow.Statement (.ldStVx x) := 
  TableRow.intro _ rfl (by simp only [encode, BitVec.ofNat_eq_ofNat, and_F0FF, famField_encodeXNN, nnField_encodeXNN]; decide) (by simp [encode])
theorem TableRow.addI (x : RegNo) : TableRow.Statement (.addI x) := 
  TableRow.intro _ rfl (by simp only [encode, BitVec.ofNat_eq_ofNat, and_F0FF, famField_encodeXNN, nnField_encodeXNN]; decide) (by simp [encode])
theorem TableRow.ldF (x : RegNo) : TableRow.Statement (.ldF x) := 
  TableRow.intro _ rfl (by simp only [encode, BitVec.ofNat_eq_ofNat, and_F0FF, famField_encodeXNN, nnField_encodeXNN]; decide) (by simp [encode])
theorem TableRow.ldB (x : RegNo) : TableRow.Statement (.ldB x) := 
  TableRow.intro _ rfl (by simp only [encode, BitVec.ofNat_eq_ofNat, and_F0FF, famField_encodeXNN, nnField_encodeXNN]; decide) (by simp [encode])
theorem TableRow.storeRegs (x : RegNo) : TableRow.Statement (.storeRegs x) := 
  TableRow.intro _ rfl (by simp only [encode, BitVec.ofNat_eq_ofNat, and_F0FF, famField_encodeXNN, nnField_encodeXNN]; decide) (by simp [encode])
theorem TableRow.loadRegs (x : RegNo) : TableRow.Statement (.loadRegs x) := 
  TableRow.intro _ rfl (by simp only [encode, BitVec.ofNat_eq_ofNat, and_F0FF, famField_encodeXNN, nnField_encodeXNN]; decide) (by simp [encode])

end Sys2Proof.Laws
end

