-- ==== Sys2Proof/Laws/Step.lean ====
section
/-! SUPPORT. What execution and a step can do, said once: an instruction completes, keeping what no instruction touches, or
raises the one fault of its rule; a step of a running core is a fault entry or a completed instruction and phases 4 and 5.
Then: the host's operations keep memory canonical. -/

namespace Sys2Proof.Machine

/-- The two instructions that write the display (spec/10_state.md R30). -/
def Instr.isDisplay : Instr → Bool
  | .cls | .drw _ _ _ => true
  | _ => false

/-- What every instruction that does not fault does to the parts the phases around it read. -/
structure Completes (i : Instr) (s t : State) : Prop where
  fault : t.fault = s.fault
  keyPrev : t.keyPrev = s.keyPrev
  inputs : t.inputs = s.inputs
  draws : t.draws = s.draws
  sndZero : t.sndZero = s.sndZero
  dispWritten : t.dispWritten = (s.dispWritten || Instr.isDisplay i)
  delay : t.DT = delayBeforeTick i s
  sound : t.ST = soundBeforeTick i s
  mem : s.mem.wf → t.mem.wf

/-- A block read answers bytes, or some address of its range is out of memory. -/
theorem State.loadBytes?_cases (s : State) (a n : Nat) :
    (s.loadBytes? a n = none ∧ 0 < n ∧ 4096 < a + n) ∨ ∃ bs, s.loadBytes? a n = some bs ∧ (n = 0 ∨ a + n ≤ 4096) := by
  cases h : s.loadBytes? a n with
  | none => exact Or.inl ⟨rfl, (inMemory_false_iff _ _).mp (State.loadBytes?_eq_none.mp h)⟩
  | some bs => exact Or.inr ⟨bs, rfl, (inMemory_iff _ _).mp (State.loadBytes?_eq_some.mp h).1⟩

/-- A block write writes memory alone and keeps it canonical, or some address of its range is out of memory. -/
theorem State.storeBytes?_cases (s : State) (a : Nat) (bs : List Byte) :
    (s.storeBytes? a bs = none ∧ 0 < bs.length ∧ 4096 < a + bs.length) ∨
      ∃ t, s.storeBytes? a bs = some t ∧ t = { s with mem := s.mem.writeList a bs } ∧ (s.mem.wf → t.mem.wf) ∧
        (bs.length = 0 ∨ a + bs.length ≤ 4096) := by
  cases h : s.storeBytes? a bs with
  | none => exact Or.inl ⟨rfl, (inMemory_false_iff _ _).mp (State.storeBytes?_eq_none.mp h)⟩
  | some t =>
    exact Or.inr ⟨t, rfl, (State.storeBytes?_eq_some.mp h).2, State.storeBytes?_wf h,
      (inMemory_iff _ _).mp (State.storeBytes?_eq_some.mp h).1⟩

/-- Every instruction completes, or raises exactly the fault its rule gives it. -/
theorem exec_cases (i : Instr) (s : State) :
    (expectedCause i s = .running ∧ ∃ t, exec i s = .next t ∧ Completes i s t) ∨
      (expectedCause i s ≠ .running ∧ exec i s = s.raise (expectedCause i s) i) := by
  cases i
  case sys => right; exact ⟨by simp [expectedCause], rfl⟩
  case ret =>
    cases h : s.pop? with
    | none =>
      right; have h0 := State.pop?_eq_none.mp h
      simp only [expectedCause, h0, exec, execRet, h]; simp
    | some p =>
      obtain ⟨a, u⟩ := p
      left
      obtain ⟨h0, hk, rfl, rfl⟩ := State.pop?_eq_some.mp h
      refine ⟨by simp only [expectedCause]; rw [if_neg (by omega)], _, (by simp only [exec, execRet]; rw [h]), ?_⟩
      constructor <;> simp [Instr.isDisplay, delayBeforeTick, soundBeforeTick]
  case call nnn =>
    cases h : s.push? s.pc with
    | none => right; have h2 : s.sp.val = 16 := State.push?_eq_none.mp h; simp [expectedCause, h2, exec, execCall, h]
    | some u =>
      left
      obtain ⟨h0, rfl⟩ := State.push?_eq_some.mp h
      have : s.sp.val ≠ 16 := by have : s.sp.val < 16 := h0; omega
      refine ⟨by simp [expectedCause, this], _, (by simp only [exec, execCall]; rw [h]), ?_⟩
      constructor <;> simp [Instr.isDisplay, delayBeforeTick, soundBeforeTick]
  case drw x y n =>
    rcases State.loadBytes?_cases s (s.effAddr 0) n.toNat with ⟨h, h1, h2⟩ | ⟨bs, h, h1⟩
    · right
      have : 0 < n.toNat ∧ 4096 ≤ s.I.toNat + n.toNat - 1 := by simp [State.effAddr] at h2; omega
      simp only [exec, execDrw, h, expectedCause, this]; simp
    · left
      have : ¬ (0 < n.toNat ∧ 4096 ≤ s.I.toNat + n.toNat - 1) := by simp [State.effAddr] at h1; omega
      refine ⟨by simp only [expectedCause, this, if_false], _, (by simp only [exec, execDrw]; rw [h]), ?_⟩
      constructor <;> simp [Instr.isDisplay, delayBeforeTick, soundBeforeTick]
  case ldB x =>
    rcases State.storeBytes?_cases s (s.effAddr 0) (bcdDigits (s.reg x)) with ⟨h, h1, h2⟩ | ⟨bs, h, rfl, hw, h1⟩
    · right
      have : 4096 ≤ s.I.toNat + 2 := by simp [State.effAddr, bcdDigits] at h2; omega
      simp only [exec, execLdB, h, expectedCause, this]; simp
    · left
      have : ¬ (4096 ≤ s.I.toNat + 2) := by simp [State.effAddr, bcdDigits] at h1; omega
      refine ⟨by simp only [expectedCause, this, if_false], _, (by simp only [exec, execLdB]; rw [h]), ?_⟩
      constructor <;> first | exact hw | simp [Instr.isDisplay, delayBeforeTick, soundBeforeTick]
  case storeRegs x =>
    rcases State.storeBytes?_cases s (s.effAddr 0) (s.blockRegs x) with ⟨h, h1, h2⟩ | ⟨bs, h, rfl, hw, h1⟩
    · right
      have : 4096 ≤ s.I.toNat + x.val := by simp [State.effAddr] at h2; omega
      simp only [exec, execStoreRegs, h, expectedCause, this]; simp
    · left
      have : ¬ (4096 ≤ s.I.toNat + x.val) := by simp [State.effAddr] at h1; omega
      refine ⟨by simp only [expectedCause, this, if_false], _, (by simp only [exec, execStoreRegs]; rw [h]), ?_⟩
      constructor <;> first | exact hw | simp [Instr.isDisplay, delayBeforeTick, soundBeforeTick]
  case loadRegs x =>
    rcases State.loadBytes?_cases s (s.effAddr 0) (blockCount x) with ⟨h, h1, h2⟩ | ⟨bs, h, h1⟩
    · right
      have : 4096 ≤ s.I.toNat + x.val := by simp [State.effAddr, blockCount] at h2; omega
      simp only [exec, execLoadRegs, h, expectedCause, this]; simp
    · left
      have : ¬ (4096 ≤ s.I.toNat + x.val) := by simp [State.effAddr, blockCount] at h1; omega
      refine ⟨by simp only [expectedCause, this, if_false], _, (by simp only [exec, execLoadRegs]; rw [h]), ?_⟩
      constructor <;> simp [Instr.isDisplay, delayBeforeTick, soundBeforeTick]
  case skp x =>
    cases h : s.keyNumber? x with
    | none => right; have := State.keyNumber?_eq_none.mp h; simp [expectedCause, this, exec, execSkp, h]
    | some k =>
      left; have := State.keyNumber?_eq_some.mp h; have := k.isLt
      refine ⟨by simp [expectedCause]; omega, _, (by simp only [exec, execSkp]; rw [h]), ?_⟩
      constructor <;> simp [Instr.isDisplay, delayBeforeTick, soundBeforeTick]
  case sknp x =>
    cases h : s.keyNumber? x with
    | none => right; have := State.keyNumber?_eq_none.mp h; simp [expectedCause, this, exec, execSknp, h]
    | some k =>
      left; have := State.keyNumber?_eq_some.mp h; have := k.isLt
      refine ⟨by simp [expectedCause]; omega, _, (by simp only [exec, execSknp]; rw [h]), ?_⟩
      constructor <;> simp [Instr.isDisplay, delayBeforeTick, soundBeforeTick]
  case ldVxK x =>
    left
    refine ⟨rfl, _, rfl, ?_⟩
    constructor <;> (split <;> simp [Instr.isDisplay, delayBeforeTick, soundBeforeTick])
  all_goals
    left
    refine ⟨rfl, _, rfl, ?_⟩
    constructor <;>
      simp [State.resultThenFlag, State.flagThenShift, Instr.isDisplay, delayBeforeTick, soundBeforeTick]

/-- The fetch as a condition on `pc` and the word there. -/
theorem State.fetch?_eq_wordAtPc (s : State) : s.fetch? = if s.pc.toNat + 1 < 4096 then some s.wordAtPc else none := by
  rw [State.fetch?_eq]
  split
  · congr 1
    unfold Word.ofBytes State.wordAtPc
    apply BitVec.eq_of_toNat_eq
    have := (s.mem.read s.pc.toNat).isLt
    have := (s.mem.read (s.pc.toNat + 1)).isLt
    rw [BitVec.toNat_append, ← Nat.shiftLeft_add_eq_or_of_lt (BitVec.isLt _), Nat.shiftLeft_eq]
    simp; omega
  · rfl

/-- The phases before execution change nothing that decides the fault of an instruction. -/
theorem expectedCause_advance (i : Instr) (s : State) : expectedCause i s.clearFlags.advance = expectedCause i s := by
  cases i <;> rfl

theorem delayBeforeTick_advance (i : Instr) (s : State) : delayBeforeTick i s.clearFlags.advance = delayBeforeTick i s := by
  cases i <;> rfl

theorem soundBeforeTick_advance (i : Instr) (s : State) : soundBeforeTick i s.clearFlags.advance = soundBeforeTick i s := by
  cases i <;> rfl

/-- A completed instruction leaves the inputs of the step as they were. -/
theorem Completes.input {i : Instr} {s t : State} (h : Completes i s t) : t.input = s.input :=
  State.input_congr h.inputs h.draws

/-- A step of a running core does one of four things: FetchFault, DecodeError on an illegal word, the fault of the decoded
instruction, or that instruction to completion with phases 4 and 5. -/
theorem step_cases (s : State) (hr : s.fault.cause = .running) :
    (¬ s.pc.toNat + 1 < 4096 ∧ step s = .next (s.enterFault .fetchFault s.pc 0x0000#16)) ∨
    (s.pc.toNat + 1 < 4096 ∧ (∃ e, decodeWord s.wordAtPc = .error e) ∧
      step s = .next (s.enterFault .decodeError s.pc s.wordAtPc)) ∨
    (s.pc.toNat + 1 < 4096 ∧ ∃ i, decodeWord s.wordAtPc = .ok i ∧ expectedCause i s ≠ .running ∧
      step s = .next (s.enterFault (expectedCause i s) s.pc (encode i))) ∨
    (s.pc.toNat + 1 < 4096 ∧ ∃ i, decodeWord s.wordAtPc = .ok i ∧ expectedCause i s = .running ∧
      ∃ t, exec i s.clearFlags.advance = .next t ∧ Completes i s.clearFlags.advance t ∧
        step s = .next ((t.tick t.input.tickDue).latch t.input.keys).nextInput) := by
  have hh : ¬ s.halted = true := by simp [State.halted_iff, hr]
  unfold step
  rw [if_neg hh, State.fetch?_eq_wordAtPc]
  by_cases hp : s.pc.toNat + 1 < 4096
  · rw [if_pos hp]
    cases hd : decodeWord s.wordAtPc with
    | error e => right; left; exact ⟨hp, ⟨e, rfl⟩, by simp only [hd]⟩
    | ok i =>
      right; right
      simp only [hd]
      rcases exec_cases i s.clearFlags.advance with ⟨h0, t, ht, hg⟩ | ⟨h1, h2⟩
      · right
        refine ⟨hp, i, rfl, by rwa [expectedCause_advance] at h0, t, ht, hg, ?_⟩
        rw [ht]; simp only []
        rw [State.finish_running]
        rw [State.not_halted_iff, hg.fault]; exact hr
      · left
        refine ⟨hp, i, rfl, by rwa [expectedCause_advance] at h1, ?_⟩
        rw [h2, State.raise_eq]; simp only []
        rw [State.finish_halted (State.halted_enterFault _ h1 _ _), expectedCause_advance]
        congr 1
        unfold State.enterFault State.advance State.clearFlags
        simp
  · rw [if_neg hp]; left; exact ⟨hp, rfl⟩

/-! ## The host's operations keep memory canonical -/

/-- Loading an image keeps memory canonical, whatever its length (R72). -/
theorem State.loadImage_wf {s : State} (h : s.mem.wf) (img : List Byte) : (s.loadImage img).mem.wf := by
  refine Memory.wf_writeList h ?_
  rw [List.length_take]
  simp only [Config.loadBase, Config.memSize]; omega

/-- The font has 16 glyphs of five bytes (R203). -/
theorem fontBytes_length : Config.fontBytes.length = 80 := by decide

/-- Loading the font keeps memory canonical (R203). -/
theorem State.loadFont_wf {s : State} (h : s.mem.wf) : s.loadFont.mem.wf := by
  have hl : Config.fontBase + Config.fontBytes.length ≤ Config.memSize := by rw [fontBytes_length]; decide
  simp only [State.loadFont]
  exact Memory.wf_writeList (bs := Config.fontBytes) h hl

/-- A launch state's memory is canonical (R204). -/
theorem State.launch_wf (img : List Byte) (withFont : Bool) : (State.launch img withFont).mem.wf := by
  unfold State.launch
  cases withFont
  · exact State.loadImage_wf Memory.wf_nil img
  · exact State.loadImage_wf (State.loadFont_wf Memory.wf_nil) img

/-- Placing bytes where the next fetch reads keeps memory canonical. -/
theorem State.placeAtPc_wf {s : State} (h : s.mem.wf) (bs : List Byte) : (s.placeAtPc bs).mem.wf := by
  refine Memory.wf_writeList h ?_
  have hl : (bs.take 2).length ≤ 2 := by rw [List.length_take]; omega
  simp only [Config.memSize]
  split
  · rename_i hp; rw [inMemory_iff] at hp; simp only [Config.memSize] at hp; omega
  · simp only [Config.pcReset]; simp; omega

/-- Placing a table word keeps memory canonical. -/
theorem State.withFetchWord_wf {s : State} (h : s.mem.wf) (nbits w : Nat) : (s.withFetchWord nbits w).mem.wf :=
  State.placeAtPc_wf h _

end Sys2Proof.Machine
end

