-- ==== Sys2Proof/Tests/Slice0.lean ====
section
/-! SUPPORT. Tests. Expected results are the vectors T<n> of spec/95_test_vectors.md and the examples of the instruction rules,
never the model's own output. Then one witness for the hypotheses of each obligation that has any. -/

namespace Sys2Proof.Tests
open Sys2Proof.Machine

-- one proof after the other: each `decide +kernel` waits for the proofs before it, and a hundred waiting threads are too many
set_option Elab.async false

/-! ## Well-formedness: the check refuses what it is for (R93, R100) -/

theorem test_wf_refuses_sys_0E0 : ¬ (Instr.sys 0x0E0#12).WellFormed := by decide
theorem test_wf_refuses_sys_0EE : ¬ (Instr.sys 0x0EE#12).WellFormed := by decide
theorem test_wf_admits_sys_000 : (Instr.sys 0x000#12).WellFormed := by decide

/-! ## Decoding: words written out from the patterns of spec/30_encoding.md R87, nibble by nibble -/

theorem test_decode_cls : decodeWord 0x00E0#16 = .ok .cls := by decide
theorem test_decode_ret : decodeWord 0x00EE#16 = .ok .ret := by decide
theorem test_decode_sys : decodeWord 0x0123#16 = .ok (.sys 0x123#12) := by decide
theorem test_decode_jp : decodeWord 0x1ABC#16 = .ok (.jp 0xABC#12) := by decide
theorem test_decode_call : decodeWord 0x2ABC#16 = .ok (.call 0xABC#12) := by decide
theorem test_decode_seImm : decodeWord 0x3A42#16 = .ok (.seImm 10 0x42#8) := by decide
theorem test_decode_sneImm : decodeWord 0x4A42#16 = .ok (.sneImm 10 0x42#8) := by decide
theorem test_decode_seReg : decodeWord 0x5AB0#16 = .ok (.seReg 10 11) := by decide
theorem test_decode_ldImm : decodeWord 0x6A7F#16 = .ok (.ldImm 10 0x7F#8) := by decide
theorem test_decode_addImm : decodeWord 0x7A01#16 = .ok (.addImm 10 0x01#8) := by decide
theorem test_decode_ldReg : decodeWord 0x8AB0#16 = .ok (.ldReg 10 11) := by decide
theorem test_decode_orReg : decodeWord 0x8AB1#16 = .ok (.orReg 10 11) := by decide
theorem test_decode_andReg : decodeWord 0x8AB2#16 = .ok (.andReg 10 11) := by decide
theorem test_decode_xorReg : decodeWord 0x8AB3#16 = .ok (.xorReg 10 11) := by decide
theorem test_decode_addReg : decodeWord 0x8AB4#16 = .ok (.addReg 10 11) := by decide
theorem test_decode_sub : decodeWord 0x8AB5#16 = .ok (.sub 10 11) := by decide
theorem test_decode_shr : decodeWord 0x8AB6#16 = .ok (.shr 10 11) := by decide
theorem test_decode_subn : decodeWord 0x8AB7#16 = .ok (.subn 10 11) := by decide
theorem test_decode_shl : decodeWord 0x8ABE#16 = .ok (.shl 10 11) := by decide
theorem test_decode_sneReg : decodeWord 0x9AB0#16 = .ok (.sneReg 10 11) := by decide
theorem test_decode_ldI : decodeWord 0xAFFF#16 = .ok (.ldI 0xFFF#12) := by decide
theorem test_decode_jpV0 : decodeWord 0xB123#16 = .ok (.jpV0 0x123#12) := by decide
theorem test_decode_rnd : decodeWord 0xCA0F#16 = .ok (.rnd 10 0x0F#8) := by decide
theorem test_decode_drw : decodeWord 0xD125#16 = .ok (.drw 1 2 0x5#4) := by decide
theorem test_decode_skp : decodeWord 0xE59E#16 = .ok (.skp 5) := by decide
theorem test_decode_sknp : decodeWord 0xE5A1#16 = .ok (.sknp 5) := by decide
theorem test_decode_ldVxDt : decodeWord 0xF307#16 = .ok (.ldVxDt 3) := by decide
theorem test_decode_ldVxK : decodeWord 0xF30A#16 = .ok (.ldVxK 3) := by decide
theorem test_decode_ldDtVx : decodeWord 0xF015#16 = .ok (.ldDtVx 0) := by decide
theorem test_decode_ldStVx : decodeWord 0xF118#16 = .ok (.ldStVx 1) := by decide
theorem test_decode_addI : decodeWord 0xFA1E#16 = .ok (.addI 10) := by decide
theorem test_decode_ldF : decodeWord 0xFA29#16 = .ok (.ldF 10) := by decide
theorem test_decode_ldB : decodeWord 0xFA33#16 = .ok (.ldB 10) := by decide
theorem test_decode_storeRegs : decodeWord 0xF155#16 = .ok (.storeRegs 1) := by decide
theorem test_decode_loadRegs : decodeWord 0xF265#16 = .ok (.loadRegs 2) := by decide

/-- T3.11, T3.12, T4.47, T4.48, T7.8, T10.3, T10.5: words that are no row, each refused by its family's name. -/
theorem test_decode_rejects :
    decodeWord 0x5AB1#16 = .error .family5 ∧ decodeWord 0x9AB1#16 = .error .family9 ∧
    decodeWord 0x8AB8#16 = .error .family8 ∧ decodeWord 0x8ABF#16 = .error .family8 ∧
    decodeWord 0x800D#16 = .error .family8 ∧ decodeWord 0xE59F#16 = .error .familyE ∧
    decodeWord 0xE500#16 = .error .familyE ∧ decodeWord 0xF002#16 = .error .familyF ∧
    decodeWord 0xF085#16 = .error .familyF := by decide

/-- T10.1: words of family 0 that are SYS. -/
theorem test_decode_sys_words :
    decodeWord 0x00E1#16 = .ok (.sys 0x0E1#12) ∧ decodeWord 0x00FF#16 = .ok (.sys 0x0FF#12) ∧
    decodeWord 0x0E00#16 = .ok (.sys 0xE00#12) := by decide

/-- Bytes are read high byte first (T1.11), and one byte is no instruction. -/
theorem test_decode_bytes :
    decode [0x60#8, 0x05#8, 0x70#8] = .ok (.ldImm 0 0x05#8, [0x70#8]) ∧ decode [0x60#8] = .error .truncated := by decide

theorem test_decodeTableWord : decodeTableWord 16 0x7003 = some (.addImm 0 0x03#8) := by decide

theorem test_encode_words :
    encode (.drw 1 2 0x5#4) = 0xD125#16 ∧ encode (.loadRegs 2) = 0xF265#16 ∧ encode (.shl 10 11) = 0x8ABE#16 ∧
    encode (.call 0xABC#12) = 0x2ABC#16 := by decide

/-! ## One step -/

/-- The next state of an outcome. -/
def nextOf : Host.Outcome State Fault Refusal → Option State
  | .next s => some s
  | .fault _ => none
  | .refused _ => none

/-- The convention of spec/95: the reset state with `op` at 0x200. -/
def start (op : Word) : State := State.launch [op.extractLsb' 8 8, op.extractLsb' 0 8] false

/-- Step inputs fixed by the host for one step. -/
def withIn (s : State) (keys : BitVec 16) (due : Bool) (rnd : Byte) : State := { s with inputs := [⟨keys, due, rnd⟩] }

/-- One step with the default inputs of spec/95 (no key, no tick, `rnd = 0`). -/
def go (s : State) : Option State := nextOf (step (withIn s 0 false 0))

/-- One step with given inputs. -/
def goIn (s : State) (keys : BitVec 16) (due : Bool) (rnd : Byte) : Option State := nextOf (step (withIn s keys due rnd))

/-- A fault record. -/
def record (c : Cause) (pc op : Word) : FaultRecord := { cause := c, pc := pc, opcode := op }

-- T6.1
theorem test_cls :
    (go { (start 0x00E0).setReg 15 0x55 with fb := Framebuffer.cleared.write 10 10 true }).map
      (fun t => (t.fb, t.reg 15, t.dispWritten, t.pc)) = some (Framebuffer.cleared, 0x55, true, 0x202) := by decide +kernel
-- T2.8
theorem test_ret :
    (go { start 0x00EE with sp := 2, stack := ((start 0).stack.set 0 0x206).set 1 0xABC }).map (fun t => (t.sp, t.pc)) =
      some (1, 0xABC) := by decide +kernel
-- T2.9
theorem test_ret_underflow :
    (go (start 0x00EE)).map (fun t => (t.fault, t.pc)) = some (record .stackUnderflow 0x200 0x00EE, 0x200) := by decide +kernel
-- T2.13
theorem test_sys :
    (go (start 0x0123)).map (fun t => (t.fault, t.pc)) = some (record .decodeError 0x200 0x0123, 0x200) := by decide +kernel
-- T2.1
theorem test_jp : (go (start 0x1ABC)).map (fun t => t.pc) = some 0xABC := by decide +kernel
-- T2.6
theorem test_call_sixteenth :
    (go { start 0x2300 with sp := 15 }).map (fun t => (t.sp, t.stack[15], t.pc)) = some (16, 0x202, 0x300) := by decide +kernel
-- T2.7
theorem test_call_overflow :
    (go { start 0x2300 with sp := 16 }).map (fun t => (t.sp, t.fault, t.pc)) =
      some (16, record .stackOverflow 0x200 0x2300, 0x200) := by decide +kernel
-- T2.11
theorem test_jpV0 : (go ((start 0xBFFF).setReg 0 0xFF)).map (fun t => t.pc) = some 0x10FE := by decide +kernel
-- T3.1
theorem test_seImm : (go ((start 0x3A42).setReg 10 0x42)).map (fun t => t.pc) = some 0x204 := by decide +kernel
-- T3.3, T3.4
theorem test_sneImm :
    (go ((start 0x4A42).setReg 10 0x42)).map (fun t => t.pc) = some 0x202 ∧
    (go ((start 0x4A42).setReg 10 0x43)).map (fun t => t.pc) = some 0x204 := by decide +kernel
-- T3.5, T3.6
theorem test_seReg :
    (go (((start 0x5AB0).setReg 10 7).setReg 11 7)).map (fun t => t.pc) = some 0x204 ∧
    (go (((start 0x5AB0).setReg 10 7).setReg 11 8)).map (fun t => t.pc) = some 0x202 := by decide +kernel
-- T3.8, T3.9
theorem test_sneReg :
    (go (((start 0x9AB0).setReg 10 7).setReg 11 7)).map (fun t => t.pc) = some 0x202 ∧
    (go (((start 0x9AB0).setReg 10 7).setReg 11 8)).map (fun t => t.pc) = some 0x204 := by decide +kernel
-- T4.1
theorem test_ldImm : (go (start 0x6A7F)).map (fun t => (t.reg 10, t.pc)) = some (0x7F, 0x202) := by decide +kernel
-- T4.3
theorem test_addImm_no_flag :
    (go (((start 0x7A01).setReg 10 0xFF).setReg 15 0x55)).map (fun t => (t.reg 10, t.reg 15)) = some (0x00, 0x55) := by
  decide +kernel
-- T4.5
theorem test_ldReg : (go ((start 0x8AB0).setReg 11 0x33)).map (fun t => t.reg 10) = some 0x33 := by decide +kernel
-- T4.6
theorem test_orReg :
    (go ((((start 0x8AB1).setReg 10 0xF0).setReg 11 0x0F).setReg 15 0x55)).map (fun t => (t.reg 10, t.reg 15)) =
      some (0xFF, 0x55) := by decide +kernel
-- T4.7
theorem test_andReg :
    (go (((start 0x8AB2).setReg 10 0xF0).setReg 11 0x3C)).map (fun t => t.reg 10) = some 0x30 := by decide +kernel
-- T4.8
theorem test_xorReg :
    (go (((start 0x8AB3).setReg 10 0xF0).setReg 11 0x3C)).map (fun t => t.reg 10) = some 0xCC := by decide +kernel
-- T4.12
theorem test_addReg_carry :
    (go (((start 0x8AB4).setReg 10 0xFF).setReg 11 0xFF)).map (fun t => (t.reg 10, t.reg 15)) = some (0xFE, 1) := by
  decide +kernel
-- T4.15
theorem test_addReg_into_vf :
    (go (((start 0x8FB4).setReg 15 0xF0).setReg 11 0x20)).map (fun t => t.reg 15) = some 1 := by decide +kernel
-- T4.20
theorem test_sub_borrow :
    (go ((((start 0x8AB5).setReg 10 1).setReg 11 2).setReg 15 1)).map (fun t => (t.reg 10, t.reg 15)) = some (0xFF, 0) := by
  decide +kernel
-- T4.21
theorem test_sub_equal :
    (go (((start 0x8AB5).setReg 10 5).setReg 11 5)).map (fun t => (t.reg 10, t.reg 15)) = some (0, 1) := by decide +kernel
-- T4.32
theorem test_shr :
    (go (((start 0x8AB6).setReg 10 5).setReg 11 0xFF)).map (fun t => (t.reg 10, t.reg 11, t.reg 15)) = some (2, 0xFF, 1) := by
  decide +kernel
-- T4.36
theorem test_shr_vf : (go ((start 0x8FB6).setReg 15 0xFF)).map (fun t => t.reg 15) = some 0 := by decide +kernel
-- T4.27
theorem test_subn :
    (go (((start 0x8AB7).setReg 10 1).setReg 11 2)).map (fun t => (t.reg 10, t.reg 15)) = some (1, 1) := by decide +kernel
-- T4.30
theorem test_subn_into_vf :
    (go (((start 0x8FB7).setReg 15 0x30).setReg 11 0x10)).map (fun t => t.reg 15) = some 0 := by decide +kernel
-- T4.38
theorem test_shl :
    (go (((start 0x8ABE).setReg 10 0x81).setReg 11 0xFF)).map (fun t => (t.reg 10, t.reg 11, t.reg 15)) =
      some (2, 0xFF, 1) := by decide +kernel
-- T4.42
theorem test_shl_vf : (go ((start 0x8FBE).setReg 15 0xFF)).map (fun t => t.reg 15) = some 2 := by decide +kernel
-- T5.1
theorem test_ldI : (go ((start 0xAFFF).setI 0x1234)).map (fun t => t.I) = some 0x0FFF := by decide +kernel
-- T4.44
theorem test_rnd : (goIn (start 0xCA0F) 0 false 0xA7).map (fun t => t.reg 10) = some 0x07 := by decide +kernel
-- T6.3, pixels (62,31), (63,31), (0,31), (1,31): the right edge wraps
theorem test_drw_wraps :
    (go { (((start 0xD011).setReg 0 62).setReg 1 31).setI 0x20C with mem := (start 0xD011).mem.write 0x20C 0xF0 }).map
      (fun t => ([t.readPixel 62 31, t.readPixel 63 31, t.readPixel 0 31, t.readPixel 1 31, t.readPixel 2 31], t.reg 15)) =
      some ([true, true, true, true, false], 0) := by decide +kernel
-- T6.12
theorem test_drw_datafault :
    (go { (((start 0xD012).setReg 15 0x55)).setI 0xFFF with mem := (start 0xD012).mem.write 0xFFF 0xFF }).map
      (fun t => (t.fault, t.fb, t.reg 15, t.dispWritten)) =
      some (record .dataFault 0x200 0xD012, Framebuffer.cleared, 0x55, false) := by decide +kernel
-- T7.1, T7.2
theorem test_skp :
    (goIn ((start 0xE59E).setReg 5 5) 0x0020 false 0).map (fun t => (t.pc, t.keyPrev)) = some (0x204, 0x0020) ∧
    (goIn ((start 0xE59E).setReg 5 5) 0xFFDF false 0).map (fun t => (t.pc, t.keyPrev)) = some (0x202, 0xFFDF) := by
  decide +kernel
-- T7.4
theorem test_skp_index :
    (goIn ((start 0xE59E).setReg 5 0x10) 0xFFFF false 0).map (fun t => (t.fault, t.keyPrev)) =
      some (record .keyIndexFault 0x200 0xE59E, 0) := by decide +kernel
-- T7.5, T7.6
theorem test_sknp :
    (goIn ((start 0xE5A1).setReg 5 5) 0x0020 false 0).map (fun t => t.pc) = some 0x202 ∧
    (goIn ((start 0xE5A1).setReg 5 5) 0xFFDF false 0).map (fun t => t.pc) = some 0x204 := by decide +kernel
-- T8.1
theorem test_ldVxDt :
    (goIn ((start 0xF307).setDT 0x2A) 0 true 0).map (fun t => (t.reg 3, t.DT)) = some (0x2A, 0x29) := by decide +kernel
-- T7.9
theorem test_ldVxK_waits :
    (goIn ((start 0xF30A).setDT 5) 0 true 0).map (fun t => (t.pc, t.DT, t.reg 3)) = some (0x200, 4, 0) := by decide +kernel
-- T7.11
theorem test_ldVxK_edge :
    (goIn ((start 0xF30A).latch 0x0008) 0x0108 false 0).map (fun t => (t.reg 3, t.pc, t.keyPrev)) =
      some (8, 0x202, 0x0108) := by decide +kernel
-- T8.2a
theorem test_ldDtVx : (goIn ((start 0xF015).setReg 0 5) 0 true 0).map (fun t => t.DT) = some 4 := by decide +kernel
-- T8.3a, T8.3c
theorem test_ldStVx :
    (goIn ((start 0xF118).setReg 1 1) 0 true 0).map (fun t => (t.ST, t.sndZero)) = some (0, true) ∧
    (goIn ((start 0xF118).setST 7) 0 true 0).map (fun t => (t.ST, t.sndZero)) = some (0, false) := by decide +kernel
-- T5.3, T5.4
theorem test_addI :
    (go (((start 0xFA1E).setI 0x0FFF).setReg 10 1)).map (fun t => t.I) = some 0x1000 ∧
    (go (((start 0xFA1E).setI 0xFFFF).setReg 10 1)).map (fun t => t.I) = some 0 := by decide +kernel
-- T5.7
theorem test_ldF :
    (go ((start 0xFA29).setReg 10 0x0F)).map (fun t => t.I) = some 0x4B ∧
    (go ((start 0xFA29).setReg 10 0xFF)).map (fun t => t.I) = some 0x4FB := by decide +kernel
-- T5.8
theorem test_ldB :
    (go (((start 0xFA33).setReg 10 0xFF).setI 0x300)).map
      (fun t => (t.mem.read 0x300, t.mem.read 0x301, t.mem.read 0x302, t.I)) = some (2, 5, 5, 0x300) := by decide +kernel
-- T5.8d
theorem test_ldB_no_wrap :
    (go (((start 0xFA33).setReg 10 0x7B).setI 0xFFFF)).map (fun t => t.fault) =
      some (record .dataFault 0x200 0xFA33) := by decide +kernel
-- T5.9
theorem test_storeRegs :
    (go ((((start 0xF155).setReg 0 0x11).setReg 1 0x22).setReg 2 0x33 |>.setI 0x300)).map
      (fun t => (t.mem.read 0x300, t.mem.read 0x301, t.mem.read 0x302, t.I)) = some (0x11, 0x22, 0, 0x302) := by decide +kernel
-- T5.12
theorem test_storeRegs_fault :
    (go (((start 0xFF55).setReg 0 1).setI 0xFF1)).map (fun t => (t.fault, t.I, t.mem.read 0xFF1)) =
      some (record .dataFault 0x200 0xFF55, 0xFF1, 0) := by decide +kernel
-- T5.15
theorem test_loadRegs :
    (go { ((start 0xF265).setReg 3 0x44).setI 0x300 with
          mem := (start 0xF265).mem.writeList 0x300 [0x02, 0x05, 0x05, 0x09] }).map
      (fun t => ([t.reg 0, t.reg 1, t.reg 2, t.reg 3], t.I)) = some ([2, 5, 5, 0x44], 0x303) := by decide +kernel
-- T5.18
theorem test_loadRegs_fault :
    (go ((((start 0xF165).setReg 0 1).setReg 1 2).setI 0xFFF)).map (fun t => (t.fault, t.reg 0, t.reg 1, t.I)) =
      some (record .dataFault 0x200 0xF165, 1, 2, 0xFFF) := by decide +kernel

/-! ## The step cycle -/

-- T2.15
theorem test_fetchfault_top :
    (go { start 0x6000 with pc := 0xFFF }).map (fun t => (t.fault, t.pc)) =
      some (record .fetchFault 0xFFF 0, 0xFFF) := by decide +kernel
-- T2.17
theorem test_odd_pc :
    (go { State.reset with pc := 0x201, mem := Memory.writeList [] 0x201 [0x6A, 0x55] }).map (fun t => (t.reg 10, t.pc)) =
      some (0x55, 0x203) := by decide +kernel
-- T9.1
theorem test_tick :
    (goIn (((start 0x6000).setDT 1).setST 1) 0 true 0).map (fun t => (t.DT, t.ST, t.sndZero)) = some (0, 0, true) := by
  decide +kernel
-- T9.2
theorem test_tick_zero :
    (goIn (start 0x6000) 0 true 0).map (fun t => (t.DT, t.ST, t.sndZero)) = some (0, 0, false) := by decide +kernel
-- T9.4
theorem test_flags_cleared :
    (go { start 0x6000 with sndZero := true, dispWritten := true }).map (fun t => (t.sndZero, t.dispWritten, t.pc)) =
      some (false, false, 0x202) := by decide +kernel
-- T9.5
theorem test_fault_no_tick_no_latch :
    (goIn { ((start 0x0000).setDT 3).setST 1 with sndZero := true, dispWritten := true } 0xFFFF true 0).map
      (fun t => (t.fault, t.sndZero, t.dispWritten, t.DT, t.ST, t.keyPrev)) =
      some (record .decodeError 0x200 0, false, false, 3, 1, 0) := by decide +kernel
-- T9.6
theorem test_halted :
    (goIn { (start 0x6005).setDT 4 with fault := record .decodeError 0x300 0, sndZero := true } 0xFFFF true 0).map
      (fun t => (t.sndZero, t.DT, t.reg 0, t.pc)) = some (true, 4, 0, 0x200) := by decide +kernel
-- T3.11
theorem test_illegal_word :
    (go (start 0x5AB1)).map (fun t => t.fault) = some (record .decodeError 0x200 0x5AB1) := by decide +kernel
-- R203: glyph 7 stands at 0x023
theorem test_font :
    (List.range 5).map (fun k => (State.launch [] true).mem.read (0x23 + k)) = [0xF0, 0x10, 0x20, 0x40, 0x40] := by
  decide +kernel

theorem test_withFetchWord :
    (nextOf (step (State.reset.withFetchWord 16 0x6A7F))).map (fun t => (t.reg 10, t.pc)) = some (0x7F, 0x202) := by
  decide +kernel

theorem test_reset_mem_wf : State.reset.mem.wf := by decide

/-! ## Witnesses: for each obligation with hypotheses, states and operands that meet them, at the edges of each clause -/

theorem witness_DecodeInvertsEncode :
    (Instr.drw 15 15 0xF#4).WellFormed ∧ (Instr.sys 0xFFF#12).WellFormed ∧ (Instr.sys 0x0E1#12).WellFormed := by decide

theorem witness_EncodeInvertsDecode :
    decodeWord 0xFF65#16 = .ok (.loadRegs 15) ∧ decodeWord 0x0000#16 = .ok (.sys 0x000#12) := by decide

/-- Rows 1 and 3 of the table both match 0x00E0. -/
theorem witness_DecoderTakesFirstMatchingRow :
    (opcodeTable[0]?.map (fun r => 0x00E0#16 &&& r.mask == r.bits)) = some true ∧
    (opcodeTable[2]?.map (fun r => 0x00E0#16 &&& r.mask == r.bits)) = some true := by decide

theorem witness_FamilyZeroPriority :
    (0x00DF#16).toNat < 0x1000 ∧ (0x00E1#16).toNat < 0x1000 ∧ (0x0FFF#16).toNat < 0x1000 ∧
    decodeWord 0x0FFF#16 = .ok (.sys 0xFFF#12) := by decide

/-- The edges of R88's five families: the last illegal words beside legal ones. -/
theorem witness_IllegalWordsOfFiveFamilies :
    decodeWord 0x5001#16 = .error .family5 ∧ decodeWord 0x9FFF#16 = .error .family9 ∧
    decodeWord 0x8008#16 = .error .family8 ∧ decodeWord 0x8FFF#16 = .error .family8 ∧
    decodeWord 0xE09D#16 = .error .familyE ∧ decodeWord 0xEFA2#16 = .error .familyE ∧
    decodeWord 0xF000#16 = .error .familyF ∧ decodeWord 0xFF66#16 = .error .familyF := by decide

/-- The last fetchable address, and the first that is not. -/
theorem witness_FetchIsBigEndian :
    { State.reset with pc := 0xFFE#16 }.pc.toNat + 1 < 4096 ∧ 4096 ≤ { State.reset with pc := 0xFFF#16 }.pc.toNat + 1 := by
  decide

/-- A running core at an instruction, with both bytes at the very end of memory. -/
def lastWord : State := { State.reset with pc := 0xFFE#16, mem := Memory.writeList [] 0xFFE [0x60#8, 0x05#8] }

theorem witness_StepRunsDecodedInstruction :
    lastWord.fault.cause = .running ∧ lastWord.pc.toNat + 1 < 4096 ∧ decodeWord lastWord.wordAtPc = .ok (.ldImm 0 0x05#8) := by
  decide +kernel

theorem witness_HaltedStepIsIdentity :
    { State.reset with fault := record .keyIndexFault 0x200 0xE09E }.fault.cause ≠ .running := by decide

theorem witness_FetchFaultExactlyOutsideMemory :
    (go lastWord).isSome = true ∧ (go { lastWord with pc := 0xFFF#16 }).map (fun t => t.fault.cause) = some .fetchFault ∧
    (go { lastWord with pc := 0xFFFF#16 }).map (fun t => t.fault.cause) = some .fetchFault := by decide +kernel

theorem witness_DecodeErrorExactlyAtIllegalOrSys :
    (go (start 0x5001)).map (fun t => t.fault.cause) = some .decodeError ∧
    (go (start 0x0000)).map (fun t => t.fault.cause) = some .decodeError ∧
    (go (start 0x5000)).map (fun t => t.fault.cause) = some .running := by decide +kernel

theorem witness_FaultEntryIsAllOrNothing :
    (start 0x00EE).fault.cause = .running ∧ (go (start 0x00EE)).map (fun t => t.fault.cause) = some .stackUnderflow := by
  decide +kernel

/-- Every cause is met by some step (codes 1 to 6, and none). -/
theorem witness_OneFaultByPhaseOrder :
    [go (start 0x6000), go (start 0x0000), go { start 0x2300 with sp := 16 }, go (start 0x00EE),
      go { start 0x6000 with pc := 0xFFF }, go ((start 0xF033).setI 0xFFE), go ((start 0xE09E).setReg 0 0x10)].map
        (fun o => o.map (fun t => t.fault.cause)) =
      [some .running, some .decodeError, some .stackOverflow, some .stackUnderflow, some .fetchFault, some .dataFault,
        some .keyIndexFault] := by decide +kernel

theorem witness_DispWrittenExactlyAfterClsOrDrw :
    (go (start 0x00E0)).map (fun t => t.dispWritten) = some true ∧
    (go (start 0xD010)).map (fun t => t.dispWritten) = some true ∧
    (go { start 0x6000 with dispWritten := true }).map (fun t => t.dispWritten) = some false := by decide +kernel

theorem witness_TickCountsTimersDown :
    decodeWord (withIn (start 0xF015) 0 true 0).wordAtPc = .ok (.ldDtVx 0) ∧
    (goIn ((start 0xF015).setReg 0 1) 0 true 0).map (fun t => (t.fault.cause, t.DT)) = some (.running, 0) ∧
    (goIn ((start 0xF015).setReg 0 1) 0 false 0).map (fun t => (t.fault.cause, t.DT)) = some (.running, 1) := by decide +kernel

theorem witness_SoundSignalExactlyOnOneToZero :
    (goIn ((start 0x6000).setST 1) 0 true 0).map (fun t => t.sndZero) = some true ∧
    (goIn ((start 0x6000).setST 2) 0 true 0).map (fun t => t.sndZero) = some false ∧
    (goIn ((start 0x6000).setST 1) 0 false 0).map (fun t => t.sndZero) = some false := by decide +kernel

theorem witness_KeyLatchFollowsCompletedSteps :
    (goIn (start 0x6000) 0x8001 false 0).map (fun t => t.keyPrev) = some 0x8001 ∧
    (goIn ((start 0x0000).latch 0x0003) 0x8001 false 0).map (fun t => t.keyPrev) = some 0x0003 := by decide +kernel

/-- The invariant holds in a running state with its bounds met exactly, and in a halted one. -/
theorem witness_StepKeepsInvariant :
    { lastWord with sp := 16, sndZero := true }.Inv ∧ { lastWord with fault := record .fetchFault 0xFFF 0 }.Inv ∧
    (go lastWord).isSome = true := by
  unfold State.Inv; decide +kernel

/-- A halted state whose record is true: a RET with the stack empty. -/
theorem witness_StepKeepsRecordTrue :
    { start 0x00EE with fault := record .stackUnderflow 0x200 0x00EE }.RecordTrue ∧ State.reset.RecordTrue ∧
    (go (start 0x00EE)).isSome = true := by
  refine ⟨fun _ => ⟨by decide +kernel, by decide +kernel, ?_, by decide +kernel, by decide +kernel⟩, fun h => absurd rfl h, by
    decide +kernel⟩
  unfold State.Fetchable; decide +kernel

/-- An image one byte too long: its last byte that fits, its first that does not, and the byte before it. -/
theorem witness_ImageLoadedAndCut :
    3583 < (List.replicate 3585 0xFF#8).length ∧ 0x200 + 3583 < 4096 ∧ 3584 < (List.replicate 3585 0xFF#8).length ∧
    ¬ 0x200 + 3584 < 4096 ∧ 0x1FF < 0x200 := by rw [List.length_replicate]; decide

theorem witness_LaunchStateHoldsFontAndImage :
    (State.launch [0x12#8] true).mem.read 0x200 = 0x12 ∧ (State.launch [0x12#8] true).mem.read 79 = 0x80 ∧
    (State.launch [0x12#8] true).mem.read 80 = 0 ∧ (State.launch [0x12#8] false).mem.read 79 = 0 := by decide +kernel

/-- `JP 0x200` at 0x200, and `JP 0xFFE` in the last word of memory. -/
theorem witness_EndedRunStaysEnded :
    (start 0x1200).EndedAt 0x200 ∧
    { State.reset with pc := 0xFFE#16, mem := Memory.writeList [] 0xFFE [0x1F#8, 0xFE#8] }.EndedAt 0xFFE := by
  unfold State.EndedAt; decide +kernel

theorem witness_FramebufferWraps :
    2047 < 2048 ∧ (Framebuffer.cleared.write 127 63 true).element 2047 = true ∧
    (Framebuffer.cleared.write 127 63 true).element 2046 = false := by decide +kernel

theorem witness_SysRaisesDecodeError :
    (0x0E1#12 ≠ 0x0E0#12 ∧ 0x0E1#12 ≠ 0x0EE#12) ∧ decodeWord 0x00E1#16 = .ok (.sys 0x0E1#12) := by decide

/-- One call active, all sixteen, none; and a CALL that does not fault with fifteen active. -/
theorem witness_RetPopsReturnAddress :
    { State.reset with sp := 1 }.sp.val = (0 : Fin 16).val + 1 ∧ { State.reset with sp := 16 }.sp.val = (15 : Fin 16).val + 1 ∧
    State.reset.sp.val = 0 ∧ { State.reset with sp := 15 }.sp.val < 16 ∧
    (nextOf (exec (.call 0x300#12) { State.reset with sp := 15 })).map (fun t => (t.fault.cause, t.sp)) = some (.running, 16) := by
  decide +kernel

theorem witness_CallPushesReturnAddress :
    State.reset.sp.val = (0 : Fin 16).val ∧ { State.reset with sp := 15 }.sp.val = (15 : Fin 16).val ∧
    { State.reset with sp := 16 }.sp.val = 16 := by decide

theorem witness_SkipsOnRegisterValues :
    (0x1#4 ≠ 0 ∧ 0xF#4 ≠ 0) ∧ (∃ s : State, s.reg 3 = s.reg 4) ∧ ∃ s : State, s.reg 3 ≠ s.reg 4 :=
  ⟨by decide, ⟨State.reset, by decide⟩, ⟨State.reset.setReg 3 1, by decide⟩⟩

/-- The destinations beside `VF`, and `VF` itself: AddSetsCarryLast, SubtractionsSetNotBorrowLast, ShiftsUseVxAndWriteFlagFirst,
FinalVfTable. -/
theorem witness_destination_clauses : (14 : RegNo) ≠ 15 ∧ (0 : RegNo) ≠ 15 ∧ (15 : RegNo) = 15 := by decide

theorem witness_RndMasksTheDraw : (0x0F#8).getLsbD 4 = false ∧ (0x0F#8).getLsbD 3 = true := by decide

/-- The last `I` whose three bytes are in memory, and the first whose are not. -/
theorem witness_BcdStore :
    (State.reset.setI 0xFFD).I.toNat + 2 < 4096 ∧ 4096 ≤ (State.reset.setI 0xFFE).I.toNat + 2 ∧
    4096 ≤ (State.reset.setI 0xFFFF).I.toNat + 2 := by decide

/-- One register and all sixteen, at the last `I` that fits and the first that does not. -/
theorem witness_BlockStore :
    (State.reset.setI 0xFFF).I.toNat + (0 : RegNo).val < 4096 ∧ 4096 ≤ (State.reset.setI 0x1000).I.toNat + (0 : RegNo).val ∧
    (State.reset.setI 0xFF0).I.toNat + (15 : RegNo).val < 4096 ∧ 4096 ≤ (State.reset.setI 0xFF1).I.toNat + (15 : RegNo).val := by
  decide

theorem witness_BlockLoad :
    (State.reset.setI 0xFF0).I.toNat + (15 : RegNo).val < 4096 ∧ 4096 ≤ (State.reset.setI 0xFF1).I.toNat + (15 : RegNo).val ∧
    (nextOf (exec (.storeRegs 15) (State.reset.setI 0xFF0))).map (fun t => (t.fault.cause, t.I)) =
      some (.running, 0x1000#16) := by decide +kernel

/-- In range and out of range, for DRW with no row, one row and fifteen. -/
theorem witness_DataFaultBeforeFirstAccess :
    State.reset.fault.cause = .running ∧ ¬ (State.reset.setI 0xFFFF).DataOutOfRange (.drw 0 0 0x0#4) ∧
    ¬ (State.reset.setI 0xFFF).DataOutOfRange (.drw 0 0 0x1#4) ∧ (State.reset.setI 0x1000).DataOutOfRange (.drw 0 0 0x1#4) ∧
    ¬ (State.reset.setI 0xFF1).DataOutOfRange (.drw 0 0 0xF#4) ∧ (State.reset.setI 0xFF2).DataOutOfRange (.drw 0 0 0xF#4) := by
  unfold State.DataOutOfRange; decide

theorem witness_DrwXorsTheSprite :
    (0x0#4 = 0) ∧ (State.reset.setI 0xFF1).I.toNat + (0xF#4).toNat - 1 < 4096 ∧
    (0 < (0xF#4).toNat ∧ 4096 ≤ (State.reset.setI 0xFF2).I.toNat + (0xF#4).toNat - 1) := by decide

/-- One row at (62, 31), drawn and drawn again (the example of R151). -/
theorem witness_DrawTwiceRestoresThePicture :
    let s := { ((State.reset.setReg 0 62).setReg 1 31).setI 0x20C with mem := Memory.write [] 0x20C 0xF0 }
    ((0 : RegNo) ≠ 15 ∧ (1 : RegNo) ≠ 15 ∧ s.I.toNat + (0x1#4).toNat - 1 < 4096) ∧
    ((nextOf (exec (.drw 0 1 0x1#4) s)).bind (fun t => nextOf (exec (.drw 0 1 0x1#4) t))).map (fun u => (u.fb, u.reg 15)) =
      some (Framebuffer.cleared, 1) := by decide +kernel

theorem witness_KeypadIsLevelState : (15 : RegNo) ≠ 0 ∧ keySet 0x0001#16 15 true = 0x8001#16 := by decide

theorem witness_KeySkipsTestTheLevel :
    ((State.reset.setReg 5 15).reg 5).toNat ≤ 15 ∧ 15 < ((State.reset.setReg 5 16).reg 5).toNat := by decide

/-- Every key held since the step before, no key, key 15 alone newly down, keys 0 and 8 newly down; and a waiting step. -/
theorem witness_KeyWaitPollsForAnEdge :
    (∀ k < 16, (withIn (State.reset.latch 0xFFFF) 0xFFFF false 0).input.keys.getLsbD k = true →
      (withIn (State.reset.latch 0xFFFF) 0xFFFF false 0).keyPrev.getLsbD k = true) ∧
    (∀ k < 16, (withIn State.reset 0 false 0).input.keys.getLsbD k = true →
      (withIn State.reset 0 false 0).keyPrev.getLsbD k = true) ∧
    (∀ j < 15, (withIn (State.reset.latch 0x7FFF) 0xFFFF false 0).input.keys.getLsbD j = true →
      (withIn (State.reset.latch 0x7FFF) 0xFFFF false 0).keyPrev.getLsbD j = true) ∧
    (withIn State.reset 0x0101 false 0).input.keys.getLsbD 0 = true ∧
    decodeWord (start 0xF30A).wordAtPc = .ok (.ldVxK 3) ∧ (start 0xF30A).fault.cause = .running := by decide +kernel

theorem witness_TimerMoves :
    (start 0xF307).fault.cause = .running ∧ (start 0xF307).pc.toNat + 1 < 4096 ∧
    decodeWord (start 0xF307).wordAtPc = .ok (.ldVxDt 3) ∧ decodeWord (start 0xF015).wordAtPc = .ok (.ldDtVx 0) ∧
    decodeWord (start 0xF118).wordAtPc = .ok (.ldStVx 1) := by decide +kernel

theorem witness_OnlySixInstructionsWriteVf :
    (nextOf (exec (.loadRegs 14) State.reset)).isSome = true ∧ writesFlag (.loadRegs 14) = false ∧
    destField (.loadRegs 14) ≠ some 15 := by decide +kernel

/-- An instruction outside the class completing; CALL with a free entry and with none; RET with a call active and with none. The
three witnesses after it have an instruction outside their class as well. -/
theorem witness_OnlyCallAndRetTouchTheStack :
    (nextOf (exec (.ldImm 0 0x05#8) State.reset)).map (fun t => t.reg 0) = some 5 ∧
    (∀ nnn, Instr.ldImm 0 0x05#8 ≠ .call nnn) ∧ Instr.ldImm 0 0x05#8 ≠ .ret ∧
    (nextOf (exec (.call 0x300#12) { State.reset with sp := 15 })).map (fun t => (t.sp, t.stack[15])) = some (16, 0x200#16) ∧
    (nextOf (exec (.call 0x300#12) { State.reset with sp := 16 })).map (fun t => t.fault.cause) = some .stackOverflow ∧
    (nextOf (exec .ret { State.reset with sp := 1 })).map (fun t => t.sp) = some 0 ∧
    (nextOf (exec .ret State.reset)).map (fun t => t.sp) = some 0 :=
  ⟨by decide +kernel, nofun, nofun, by decide +kernel, by decide +kernel, by decide +kernel, by decide +kernel⟩

theorem witness_WritersOfEachStore :
    (nextOf (exec .cls State.reset)).isSome = true ∧ (∀ x, Instr.cls ≠ .ldB x) ∧ (∀ x, Instr.cls ≠ .storeRegs x) ∧
    (nextOf (exec (.ldB 0) (State.reset.setI 0x300))).isSome = true ∧ Instr.ldB 0 ≠ .cls ∧ ∀ x y n, Instr.ldB 0 ≠ .drw x y n :=
  ⟨by decide +kernel, nofun, nofun, by decide +kernel, nofun, nofun⟩

theorem witness_NoInstructionReadsSoundTimer :
    (nextOf (exec (.ldVxDt 0) State.reset)).isSome = true ∧ (∀ x, Instr.ldVxDt 0 ≠ .ldStVx x) ∧
    (nextOf (exec (.ldStVx 0) State.reset)).isSome = true := ⟨by decide +kernel, nofun, by decide +kernel⟩

theorem witness_OnlyKeyWaitReadsKeyLatch :
    (nextOf (exec (.ldVxDt 0) State.reset)).isSome = true ∧ ∀ x, Instr.ldVxDt 0 ≠ .ldVxK x := ⟨by decide +kernel, nofun⟩

end Sys2Proof.Tests
end

/-! What one step of a running core leaves, and what holds of every state it leads to (spec/10_state.md R29 to R32, R39, R40). -/

namespace Sys2Proof.Machine

/-! ## The outcome of a step -/

/-- A step of a running core enters a fault at `pc`, or completes the instruction at `pc` and then ticks and latches (R84, R188). -/
theorem step_outcome {s t : State} (hr : s.fault.cause = .running) (h : step s = .next t) :
    (∃ c op, c ≠ .running ∧ t = s.enterFault c s.pc op) ∨
    (s.pc.toNat + 1 < 4096 ∧ ∃ i u, decodeWord s.wordAtPc = .ok i ∧ Completes i s.clearFlags.advance u ∧
      t = ((u.tick s.input.tickDue).latch s.input.keys).nextInput) := by
  rcases step_cases s hr with ⟨-, hs⟩ | ⟨-, -, hs⟩ | ⟨-, i, -, hc, hs⟩ | ⟨hp, i, hd, -, u, -, hu, hs⟩ <;>
    rw [hs] at h <;> cases h
  · exact .inl ⟨.fetchFault, _, nofun, rfl⟩
  · exact .inl ⟨.decodeError, _, nofun, rfl⟩
  · exact .inl ⟨_, _, hc, rfl⟩
  · have hin : u.input = s.input := hu.input.trans (State.input_congr rfl rfl)
    exact .inr ⟨hp, i, u, hd, hu, by rw [hin]⟩

/-- A step of a halted core changes nothing (R189). -/
theorem step_of_halted {s : State} (hr : s.fault.cause ≠ .running) : step s = .next s := by
  unfold step
  rw [if_pos (s.halted_iff.mpr hr)]

theorem Instr.isDisplay_iff (i : Instr) : Instr.isDisplay i = true ↔ i = .cls ∨ ∃ x y n, i = .drw x y n := by
  cases i <;> simp [Instr.isDisplay]

/-! ## The invariant (R39) -/

/-- Fault entry at any address keeps the invariant: it clears both flags and touches no memory (R188). -/
theorem State.Inv.enterFault {s : State} (hs : s.Inv) {c : Cause} (hc : c ≠ .running) (p op : Word) :
    (s.enterFault c p op).Inv := by
  obtain ⟨hmem, -, -, -, -⟩ := hs
  exact ⟨hmem, Nat.le_of_lt_succ (Fin.isLt _), fun h => absurd h hc, nofun, fun _ => ⟨rfl, rfl⟩⟩

/-- The sound signal of a tick is raised only as `ST` comes to 0 (R195). -/
theorem State.tick_ST_eq_zero {u : State} {due : Bool} (hu : u.sndZero = false) (h : (u.tick due).sndZero = true) :
    (u.tick due).ST = 0 := by
  obtain ⟨hdue, hst⟩ : due = true ∧ u.ST = 1 := by simpa [hu] using h
  simp [hdue, hst, countDown]

/-- Completing an instruction, the tick and the key latch keep the invariant of a running core. -/
theorem State.Inv.completes {s u : State} {i : Instr} (hs : s.Inv) (hr : s.fault.cause = .running)
    (hu : Completes i s.clearFlags.advance u) (due : Bool) (keys : BitVec 16) :
    (((u.tick due).latch keys).nextInput).Inv := by
  obtain ⟨hmem, -, hrec, -, -⟩ := hs
  have hfault : u.fault = s.fault := hu.fault
  refine ⟨?_, Nat.le_of_lt_succ (Fin.isLt _), ?_, ?_, ?_⟩
  · simpa only [nextInput_mem, latch_mem, tick_mem] using hu.mem hmem
  · simpa [hfault] using hrec
  · simpa only [nextInput_sndZero, nextInput_ST, latch_sndZero, latch_ST] using State.tick_ST_eq_zero hu.sndZero
  · intro h
    exact absurd hr (by simpa [hfault] using h)

/-- Settles O20: a halted core stays as it is, and a running one enters a fault or completes an instruction, both of which keep the
invariant. -/
theorem stepKeepsInvariant : Obligations.StepKeepsInvariant := by
  intro s t hs h
  by_cases hr : s.fault.cause = .running
  · rcases step_outcome hr h with ⟨c, op, hc, rfl⟩ | ⟨-, i, u, -, hu, rfl⟩
    · exact hs.enterFault hc _ _
    · exact hs.completes hr hu _ _
  · rw [step_of_halted hr] at h
    cases h
    exact hs

/-! ## Signals and latch of a step (R30, R32) -/

/-- Settles O15: fault entry clears the flag, and a completed step raises it exactly if its instruction writes the display. -/
theorem dispWrittenExactlyAfterClsOrDrw : Obligations.DispWrittenExactlyAfterClsOrDrw := by
  intro s t hr h
  rcases step_outcome hr h with ⟨c, op, hc, rfl⟩ | ⟨hp, i, u, hd, hu, rfl⟩
  · simp [hc]
  · have hflag : u.dispWritten = Instr.isDisplay i := by simpa using hu.dispWritten
    have hfault : u.fault = s.fault := hu.fault
    simp [hflag, hfault, hr, hp, hd, Instr.isDisplay_iff]

/-- Settles O18: fault entry leaves the latch, and phase 5 of a completed step writes it. -/
theorem keyLatchFollowsCompletedSteps : Obligations.KeyLatchFollowsCompletedSteps := by
  intro s t hr h
  rcases step_outcome hr h with ⟨c, op, hc, rfl⟩ | ⟨-, i, u, -, hu, rfl⟩
  · simp [hc]
  · have hfault : u.fault = s.fault := hu.fault
    simp [hfault, hr]

/-! ## Reset (R40, R201) -/

/-- Settles O19: reset memory lists nothing, and the record is clear. -/
theorem resetMeetsInvariants : Obligations.ResetMeetsInvariants :=
  ⟨⟨Memory.wf_nil, by decide, fun _ => ⟨rfl, rfl⟩, nofun, fun h => absurd rfl h⟩, fun h => absurd rfl h⟩

/-- Asserting reset in any state, running or halted, gives the table of R40. -/
theorem State.isResetTable_assertReset (s : State) : IsResetTable s.assertReset := by
  have hreg : ∀ r, s.assertReset.reg r = 0 := fun r => Vector.getElem_replicate r.isLt
  have hstack : ∀ (k : Nat) (h : k < 16), s.assertReset.stack[k] = 0 := fun _ h => Vector.getElem_replicate h
  exact ⟨hreg, rfl, rfl, hstack, rfl, rfl, rfl, rfl, rfl, rfl, rfl, rfl, rfl, fun _ => rfl, Framebuffer.read_cleared⟩

/-- Settles O22: reset is reset asserted in the reset state itself. -/
theorem resetGivesTheTable : Obligations.ResetGivesTheTable :=
  ⟨State.reset.isResetTable_assertReset, State.isResetTable_assertReset⟩

end Sys2Proof.Machine

/-! Which stores an instruction may write (spec/10_state.md R21 to R36): the frame of every instruction, said once. -/

namespace Sys2Proof.Machine

/-! ## The frame of an instruction -/

/-- The stores that an instruction leaves as they are unless it is one of the store's writers. -/
structure Frame (i : Instr) (s t : State) : Prop where
  memory : (∀ x, i ≠ .ldB x) → (∀ x, i ≠ .storeRegs x) → t.mem = s.mem
  picture : i ≠ .cls → (∀ x y n, i ≠ .drw x y n) → t.fb = s.fb
  index : (∀ nnn, i ≠ .ldI nnn) → (∀ x, i ≠ .addI x) → (∀ x, i ≠ .ldF x) → (∀ x, i ≠ .storeRegs x) →
    (∀ x, i ≠ .loadRegs x) → t.I = s.I
  delay : (∀ x, i ≠ .ldDtVx x) → t.DT = s.DT
  sound : (∀ x, i ≠ .ldStVx x) → t.ST = s.ST
  keyPrev : t.keyPrev = s.keyPrev
  inputs : t.inputs = s.inputs
  draws : t.draws = s.draws
  stack : (∀ nnn, i ≠ .call nnn) → t.stack = s.stack
  sp : (∀ nnn, i ≠ .call nnn) → i ≠ .ret → t.sp = s.sp
  flagReg : writesFlag i = false → destField i ≠ some 15 → t.reg 15 = s.reg 15

/-- Fault entry writes none of these stores (R188). -/
theorem Frame.enterFault (i : Instr) (s : State) (c : Cause) (p op : Word) : Frame i s (s.enterFault c p op) := by
  constructor <;> intros <;> rfl

theorem Frame.of_raise {i j : Instr} {s t : State} {c : Cause} (h : s.raise c j = .next t) : Frame i s t := by
  cases h
  exact .enterFault ..

theorem Frame.skipIf (i : Instr) (s : State) (c : Bool) : Frame i s (s.skipIf c) := by constructor <;> intros <;> rfl

theorem Frame.setPc (i : Instr) (s : State) (a : Word) : Frame i s (s.setPc a) := by constructor <;> intros <;> rfl

/-- A write to the destination register leaves `VF` unless that is the destination. -/
theorem Frame.setReg {i : Instr} {r : RegNo} (hd : destField i = some r) (s : State) (b : Byte) : Frame i s (s.setReg r b) := by
  constructor
  case flagReg =>
    intro _ hvf
    have hr : ¬ 15 = r := fun h => hvf (hd.trans (congrArg some h.symm))
    rw [State.reg_setReg, if_neg hr]
  all_goals intros; rfl

/-- A block load of at most `r` registers leaves register `r`. -/
theorem State.reg_setRegs_of_le (s : State) {bs : List Byte} {r : RegNo} (h : bs.length ≤ r.val) :
    (s.setRegs bs).reg r = s.reg r := by
  rw [State.reg_setRegs, dif_neg (Nat.not_lt.mpr h)]

/-- LD Vx, [I] with `x` other than 15 loads at most 15 registers, so not `VF`. -/
theorem loadBytes?_blockCount_le {s : State} {a : Nat} {x : RegNo} {bs : List Byte}
    (h : s.loadBytes? a (blockCount x) = some bs) (hx : x ≠ 15) : bs.length ≤ (15 : RegNo).val := by
  obtain ⟨-, rfl⟩ := State.loadBytes?_eq_some.mp h
  rw [List.length_map, List.length_range]
  have : x.val ≠ 15 := fun hv => hx (Fin.ext hv)
  have := x.isLt
  show x.val + 1 ≤ 15
  omega

/-- Every instruction keeps its frame: fault entry does, a write to the program counter or to the destination register does, and each
of the other instructions writes the stores it is named for. -/
theorem exec_frame {i : Instr} {s t : State} (h : exec i s = .next t) : Frame i s t := by
  cases i
  case sys nnn => exact .of_raise h
  case jp | jpV0 => cases h; exact .setPc ..
  case seImm | sneImm | seReg | sneReg => cases h; exact .skipIf ..
  case ldImm | addImm | ldReg | orReg | andReg | xorReg | rnd | ldVxDt => cases h; exact .setReg rfl ..
  case cls | ldI | addI | ldF | ldDtVx | ldStVx => cases h; constructor <;> simp
  case addReg | sub | subn => cases h; constructor <;> simp [writesFlag, State.resultThenFlag]
  case shr | shl => cases h; constructor <;> simp [writesFlag, State.flagThenShift]
  case ldVxK x =>
    simp only [exec, execLdVxK] at h
    split at h <;> cases h
    · exact .setPc ..
    · exact .setReg rfl ..
  case skp x =>
    simp only [exec, execSkp] at h
    split at h
    · exact .of_raise h
    · cases h; exact .skipIf ..
  case sknp x =>
    simp only [exec, execSknp] at h
    split at h
    · exact .of_raise h
    · cases h; exact .skipIf ..
  case drw x y n =>
    simp only [exec, execDrw] at h
    split at h
    · exact .of_raise h
    · cases h
      constructor <;> simp [writesFlag]
  case ldB x =>
    simp only [exec, execLdB] at h
    split at h
    · exact .of_raise h
    next u hu =>
      cases h
      obtain ⟨-, rfl⟩ := State.storeBytes?_eq_some.mp hu
      constructor <;> simp [State.reg]
  case storeRegs x =>
    simp only [exec, execStoreRegs] at h
    split at h
    · exact .of_raise h
    next u hu =>
      cases h
      obtain ⟨-, rfl⟩ := State.storeBytes?_eq_some.mp hu
      constructor <;> simp [State.reg]
  case loadRegs x =>
    simp only [exec, execLoadRegs] at h
    split at h
    · exact .of_raise h
    next bs hbs =>
      cases h
      have hvf : x ≠ 15 → (s.setRegs bs).reg 15 = s.reg 15 := fun hx =>
        s.reg_setRegs_of_le (loadBytes?_blockCount_le hbs hx)
      constructor <;> simp +contextual [destField, hvf]
  case ret =>
    simp only [exec, execRet] at h
    split at h
    · exact .of_raise h
    next a u hp =>
      cases h
      obtain ⟨-, -, -, rfl⟩ := State.pop?_eq_some.mp hp
      constructor <;> simp [State.reg]
  case call nnn =>
    simp only [exec, execCall] at h
    split at h
    · exact .of_raise h
    next u hp =>
      cases h
      obtain ⟨-, rfl⟩ := State.push?_eq_some.mp hp
      constructor <;> simp [State.reg]

/-- Settles O53: the clause of the frame on `VF`. -/
theorem onlySixInstructionsWriteVf : Obligations.OnlySixInstructionsWriteVf :=
  fun _ _ _ h => (exec_frame h).flagReg

/-- Settles O55: the clauses of the frame on memory, the picture, `I`, the timers, the key latch and the inputs. -/
theorem writersOfEachStore : Obligations.WritersOfEachStore := by
  intro i s t h
  have hf := exec_frame h
  exact ⟨hf.memory, hf.picture, hf.index, hf.delay, hf.sound, hf.keyPrev, hf.inputs, hf.draws⟩

end Sys2Proof.Machine

/-! Which stores an instruction does not read: executing it commutes with replacing such a store (spec/10_state.md R24 to R32). -/

namespace Sys2Proof.Machine

/-! ## Replacing a store that is not read -/

/-- The outcome with its next state, if it is one, replaced. -/
def mapNext (f : State → State) : Host.Outcome State Fault Refusal → Host.Outcome State Fault Refusal
  | .next t => .next (f t)
  | .fault r => .fault r
  | .refused r => .refused r

@[simp] theorem mapNext_next (f : State → State) (t : State) : mapNext f (.next t) = .next (f t) := rfl

/-- `f` replaces stores that nearly every instruction ignores: it leaves the stores they read, and commutes with their writes. -/
structure Ignorable (f : State → State) : Prop where
  reads_V : ∀ s, (f s).V = s.V
  reads_I : ∀ s, (f s).I = s.I
  reads_pc : ∀ s, (f s).pc = s.pc
  reads_DT : ∀ s, (f s).DT = s.DT
  reads_mem : ∀ s, (f s).mem = s.mem
  reads_fb : ∀ s, (f s).fb = s.fb
  reads_input : ∀ s, (f s).input = s.input
  setReg : ∀ s r b, (f s).setReg r b = f (s.setReg r b)
  setRegs : ∀ s bs, (f s).setRegs bs = f (s.setRegs bs)
  setPc : ∀ s a, (f s).setPc a = f (s.setPc a)
  setI : ∀ s v, (f s).setI v = f (s.setI v)
  setDT : ∀ s v, (f s).setDT v = f (s.setDT v)
  skipIf : ∀ s c, (f s).skipIf c = f (s.skipIf c)
  display : ∀ s p, (f s).display p = f (s.display p)
  setMem : ∀ s m, { f s with mem := m } = f { s with mem := m }
  enterFault : ∀ s c p op, (f s).enterFault c p op = f (s.enterFault c p op)

/-- `f` leaves the call stack, and commutes with a push and a pop. -/
structure KeepsStack (f : State → State) : Prop where
  reads_sp : ∀ s, (f s).sp = s.sp
  reads_stack : ∀ s, (f s).stack = s.stack
  setStack : ∀ s st p, { f s with stack := st, sp := p } = f { s with stack := st, sp := p }

theorem KeepsStack.push? {f : State → State} (hf : KeepsStack f) (s : State) (a : Word) :
    (f s).push? a = (s.push? a).map f := by
  unfold State.push?
  by_cases h : s.sp.val < Config.stackDepth <;> simp [h, hf.reads_sp, hf.reads_stack, hf.setStack]

theorem KeepsStack.pop? {f : State → State} (hf : KeepsStack f) (s : State) :
    (f s).pop? = s.pop?.map (fun p => (p.1, f p.2)) := by
  unfold State.pop?
  by_cases h : 0 < s.sp.val <;> simp [h, hf.reads_sp, hf.reads_stack, hf.setStack]

namespace Ignorable

variable {f : State → State} (hf : Ignorable f) (s : State)
include hf

theorem reg (r : RegNo) : (f s).reg r = s.reg r := State.reg_congr (hf.reads_V s) r

theorem effAddr (k : Nat) : (f s).effAddr k = s.effAddr k := by unfold State.effAddr; rw [hf.reads_I]

theorem blockRegs (x : RegNo) : (f s).blockRegs x = s.blockRegs x := by unfold State.blockRegs; rw [hf.reads_V]

theorem blockNextI (x : RegNo) : (f s).blockNextI x = s.blockNextI x := by unfold State.blockNextI; rw [hf.reads_I]

theorem keyNumber? (x : RegNo) : (f s).keyNumber? x = s.keyNumber? x := by
  simp only [State.keyNumber?, hf.reg]

theorem loadBytes? (a n : Nat) : (f s).loadBytes? a n = s.loadBytes? a n := by
  unfold State.loadBytes?; rw [hf.reads_mem]

theorem storeBytes? (a : Nat) (bs : List Byte) : (f s).storeBytes? a bs = (s.storeBytes? a bs).map f := by
  unfold State.storeBytes?
  split
  · rw [hf.reads_mem, hf.setMem]; rfl
  · rfl

theorem raise (c : Cause) (i : Instr) : (f s).raise c i = mapNext f (s.raise c i) := by
  rw [State.raise_eq, hf.reads_pc, hf.enterFault]; rfl

/-- Executing an instruction commutes with an ignorable replacement, provided it does so with the stack for CALL and RET, leaves the
key latch for LD Vx, K, and leaves the write of LD ST, Vx. -/
theorem exec_comm {i : Instr}
    (hcall : ∀ nnn, i = .call nnn → KeepsStack f)
    (hret : i = .ret → KeepsStack f)
    (hwait : ∀ x, i = .ldVxK x → (f s).keyPrev = s.keyPrev)
    (hsound : ∀ x, i = .ldStVx x → ∀ v, (f s).setST v = f (s.setST v)) :
    exec i (f s) = mapNext f (exec i s) := by
  cases i
  case call nnn =>
    simp only [exec, execCall, hf.reads_pc, (hcall nnn rfl).push?]
    cases s.push? s.pc <;> simp [hf.raise, hf.setPc]
  case ret =>
    simp only [exec, execRet, (hret rfl).pop?]
    cases s.pop? <;> simp [hf.raise, hf.setPc]
  case ldVxK x =>
    simp only [exec, execLdVxK, hwait x rfl, hf.reads_input, hf.reads_pc, mapNext_next]
    split <;> simp [hf.setPc, hf.setReg]
  case ldStVx x => simp only [exec, execLdStVx, hf.reg, hsound x rfl, mapNext_next]
  case drw x y n =>
    simp only [exec, execDrw, hf.effAddr, hf.loadBytes?, hf.reg, hf.reads_fb]
    split <;> simp [hf.raise, hf.setReg, hf.display]
  case ldB x =>
    simp only [exec, execLdB, hf.effAddr, hf.storeBytes?, hf.reg]
    cases s.storeBytes? (s.effAddr 0) (bcdDigits (s.reg x)) <;> simp [hf.raise]
  case storeRegs x =>
    simp only [exec, execStoreRegs, hf.effAddr, hf.storeBytes?, hf.blockRegs, hf.blockNextI]
    cases s.storeBytes? (s.effAddr 0) (s.blockRegs x) <;> simp [hf.raise, hf.setI]
  case loadRegs x =>
    simp only [exec, execLoadRegs, hf.effAddr, hf.loadBytes?, hf.blockNextI]
    split <;> simp [hf.raise, hf.setRegs, hf.setI]
  case skp x =>
    simp only [exec, execSkp, hf.keyNumber?, hf.reads_input]
    split <;> simp [hf.raise, hf.skipIf]
  case sknp x =>
    simp only [exec, execSknp, hf.keyNumber?, hf.reads_input]
    split <;> simp [hf.raise, hf.skipIf]
  case sys nnn => exact hf.raise s .decodeError (.sys nnn)
  case cls => simp only [exec, execCls, hf.display, mapNext_next]
  case seImm | sneImm | seReg | sneReg =>
    simp only [exec, execSeImm, execSneImm, execSeReg, execSneReg, hf.reg, hf.skipIf, mapNext_next]
  case jp | jpV0 => simp only [exec, execJp, execJpV0, hf.reg, hf.setPc, mapNext_next]
  case ldI | addI | ldF => simp only [exec, execLdI, execAddI, execLdF, hf.reg, hf.reads_I, hf.setI, mapNext_next]
  case ldDtVx => simp only [exec, execLdDtVx, hf.reg, hf.setDT, mapNext_next]
  case addReg | sub | subn =>
    simp only [exec, execAddReg, execSub, execSubn, State.resultThenFlag, hf.reg, hf.setReg, mapNext_next]
  case shr | shl => simp only [exec, execShr, execShl, State.flagThenShift, hf.reg, hf.setReg, mapNext_next]
  case ldImm | addImm | ldReg | orReg | andReg | xorReg | rnd | ldVxDt =>
    simp only [exec, execLdImm, execAddImm, execLdReg, execOrReg, execAndReg, execXorReg, execRnd, execLdVxDt, hf.reg,
      hf.reads_DT, hf.reads_input, hf.setReg, mapNext_next]

end Ignorable

/-! ## The sound timer (R27) and the key latch (R32) -/

theorem ignorable_setST (v : Byte) : Ignorable (State.setST · v) := by constructor <;> intros <;> rfl

theorem keepsStack_setST (v : Byte) : KeepsStack (State.setST · v) := by constructor <;> intros <;> rfl

/-- Settles O56: replacing `ST` is ignored by all but LD ST, Vx, which overwrites it. -/
theorem noInstructionReadsSoundTimer : Obligations.NoInstructionReadsSoundTimer := by
  intro i s t v h
  constructor
  · intro hi
    have hcomm : exec i (s.setST v) = mapNext (State.setST · v) (exec i s) :=
      (ignorable_setST v).exec_comm s (fun _ _ => keepsStack_setST v) (fun _ => keepsStack_setST v) (fun _ _ => rfl)
        (fun x hx => absurd hx (hi x))
    rwa [h] at hcomm
  · rintro ⟨x, rfl⟩
    rw [← h]
    rfl

theorem ignorable_latch (v : BitVec 16) : Ignorable (State.latch · v) := by constructor <;> intros <;> rfl

theorem keepsStack_latch (v : BitVec 16) : KeepsStack (State.latch · v) := by constructor <;> intros <;> rfl

/-- Settles O57: replacing `key_prev` is ignored by all but LD Vx, K. -/
theorem onlyKeyWaitReadsKeyLatch : Obligations.OnlyKeyWaitReadsKeyLatch := by
  intro i s t v hi h
  have hcomm : exec i (s.latch v) = mapNext (State.latch · v) (exec i s) :=
    (ignorable_latch v).exec_comm s (fun _ _ => keepsStack_latch v) (fun _ => keepsStack_latch v)
      (fun x hx => absurd hx (hi x)) (fun _ _ _ => rfl)
  rwa [h] at hcomm

/-! ## The stack (R24, R25) -/

/-- The state with another stack. -/
def State.withStack (s : State) (st : Vector Word 16) : State := { s with stack := st }

theorem ignorable_withStack (st : Vector Word 16) : Ignorable (State.withStack · st) := by
  constructor <;> intros <;> rfl

theorem exec_call_of_lt (nnn : BitVec 12) {s : State} (h : s.sp.val < 16) :
    exec (.call nnn) s = .next { s with
      stack := s.stack.set s.sp.val s.pc h, sp := ⟨s.sp.val + 1, Nat.succ_lt_succ h⟩, pc := zextNNN nnn } := by
  simp only [exec, execCall, State.push?_eq_some.mpr ⟨h, rfl⟩]
  rfl

theorem exec_call_of_full (nnn : BitVec 12) {s : State} (h : s.sp.val = 16) :
    exec (.call nnn) s = s.raise .stackOverflow (.call nnn) := by
  simp only [exec, execCall, State.push?_eq_none.mpr h]

/-- CALL takes `sp` up by one, or leaves it where it overflows (R103). -/
theorem exec_call_sp {nnn : BitVec 12} {s t : State} (h : exec (.call nnn) s = .next t) :
    t.sp.val = if s.sp.val < 16 then s.sp.val + 1 else s.sp.val := by
  by_cases hs : s.sp.val < 16
  · rw [exec_call_of_lt nnn hs] at h
    cases h
    rw [if_pos hs]
  · have hle : s.sp.val < 17 := s.sp.isLt
    rw [exec_call_of_full nnn (by omega)] at h
    cases h
    rw [if_neg hs]
    rfl

/-- RET takes `sp` down by one, or leaves it at zero where it underflows (R101). -/
theorem exec_ret_sp {s t : State} (h : exec .ret s = .next t) : t.sp.val = s.sp.val - 1 := by
  simp only [exec, execRet] at h
  split at h
  next hp =>
    cases h
    have := State.pop?_eq_none.mp hp
    simp [this]
  next a u hp =>
    cases h
    obtain ⟨-, -, -, rfl⟩ := State.pop?_eq_some.mp hp
    rfl

/-- An instruction other than CALL and RET gives on another stack the same next state with that stack. -/
theorem exec_withStack {i : Instr} {s t : State} (hcall : ∀ nnn, i ≠ .call nnn) (hret : i ≠ .ret)
    (h : exec i s = .next t) (st : Vector Word 16) : exec i (s.withStack st) = .next (t.withStack st) := by
  have hcomm : exec i (s.withStack st) = mapNext (State.withStack · st) (exec i s) :=
    (ignorable_withStack st).exec_comm s (fun nnn hi => absurd hi (hcall nnn)) (fun hi => absurd hi hret)
      (fun _ _ => rfl) (fun _ _ _ => rfl)
  rwa [h] at hcomm

/-- CALL with a free entry writes the return address into whatever stack there is. -/
theorem exec_call_withStack_of_lt {nnn : BitVec 12} {s t : State} (h : exec (.call nnn) s = .next t)
    (st : Vector Word 16) (hs : s.sp.val < 16) :
    exec (.call nnn) (s.withStack st) = .next (t.withStack (st.set s.sp.val s.pc hs)) := by
  rw [exec_call_of_lt nnn hs] at h
  cases h
  exact exec_call_of_lt nnn (s := s.withStack st) hs

/-- CALL with no free entry leaves whatever stack there is. -/
theorem exec_call_withStack_of_full {nnn : BitVec 12} {s t : State} (h : exec (.call nnn) s = .next t)
    (st : Vector Word 16) (hs : s.sp.val = 16) :
    exec (.call nnn) (s.withStack st) = .next (t.withStack st) := by
  rw [exec_call_of_full nnn hs] at h
  cases h
  exact exec_call_of_full nnn (s := s.withStack st) hs

/-- Settles O54: the clauses of the frame on the stack and `sp`, what CALL and RET do to `sp`, and what replacing the stack does. -/
theorem onlyCallAndRetTouchTheStack : Obligations.OnlyCallAndRetTouchTheStack := by
  intro i s t h
  have hf := exec_frame h
  refine ⟨hf.stack, hf.sp, ?_, ?_, fun hcall hret => exec_withStack hcall hret h, ?_⟩
  · rintro ⟨nnn, rfl⟩
    exact exec_call_sp h
  · rintro rfl
    exact exec_ret_sp h
  · rintro ⟨nnn, rfl⟩ st
    exact ⟨exec_call_withStack_of_lt h st, exec_call_withStack_of_full h st⟩

end Sys2Proof.Machine

/-! The stores and what the host puts into them (spec/20_memory.md): the program image (R72), the fetched word (R55), the
framebuffer (R62) and the keypad (R64). -/

namespace Sys2Proof.Machine

/-! ## The program image (R72) -/

/-- A read after loading an image: byte `a - 0x200` of it where both the image and memory reach, the old byte elsewhere. -/
theorem State.read_loadImage (s : State) (img : List Byte) (a : Nat) :
    (s.loadImage img).mem.read a =
      if h : 0x200 ≤ a ∧ a < 4096 ∧ a - 0x200 < img.length then img[a - 0x200] else s.mem.read a := by
  have hrange : (0x200 ≤ a ∧ a - 0x200 < (img.take (4096 - 0x200)).length) ↔
      0x200 ≤ a ∧ a < 4096 ∧ a - 0x200 < img.length := by
    simp only [List.length_take]
    omega
  simp only [State.loadImage, Memory.read_writeList, List.getElem_take, hrange]

/-- Loading an image changes memory alone. -/
theorem State.loadImage_keepsAllBut_memory (s : State) (img : List Byte) :
    KeepsAllBut [] [.memory] s (s.loadImage img) := by
  refine ⟨fun _ _ => rfl, fun p hp => ?_⟩
  cases p
  case memory => exact absurd (List.mem_singleton_self _) hp
  case picture => exact fun _ _ => rfl
  case inputs => exact ⟨rfl, rfl⟩
  all_goals rfl

/-- Settles O23: an address `0x200 + k` in memory reads byte `k` of the image, and the other addresses lie outside the loaded
range. -/
theorem imageLoadedAndCut : Obligations.ImageLoadedAndCut := by
  intro s img
  refine ⟨fun k hk hmem => ?_, fun a ha => ?_, s.loadImage_keepsAllBut_memory img⟩
  · have hin : 0x200 ≤ 0x200 + k ∧ 0x200 + k < 4096 ∧ 0x200 + k - 0x200 < img.length := by omega
    rw [State.read_loadImage, dif_pos hin]
    simp only [Nat.add_sub_cancel_left]
  · rw [State.read_loadImage, dif_neg (by omega)]

/-! ## The fetched word (R55, R85) -/

/-- Settles O7: the fetch is the word at `pc` under the range check. -/
theorem fetchIsBigEndian : Obligations.FetchIsBigEndian := by
  intro s
  rw [State.fetch?_eq_wordAtPc]
  exact ⟨fun h => if_pos h, fun h => if_neg (Nat.not_lt.mpr h)⟩

/-! ## The framebuffer (R62) -/

@[simp] theorem wrapX_mod (x : Nat) : wrapX (x % 64) = wrapX x := Nat.mod_mod x 64

@[simp] theorem wrapY_mod (y : Nat) : wrapY (y % 32) = wrapY y := Fin.ext (Nat.mod_mod y 32)

/-- A pixel is the linear element at its index. -/
theorem Framebuffer.element_pixelIndex (f : Framebuffer) (x y : Nat) : f.element (pixelIndex x y) = f.read x y := by
  have hx : pixelIndex x y % 64 = x % 64 := by simp only [pixelIndex, Config.fbWidth, Config.fbHeight]; omega
  have hy : pixelIndex x y / 64 = y % 32 := by simp only [pixelIndex, Config.fbWidth, Config.fbHeight]; omega
  simp only [Framebuffer.element, hx, hy, Framebuffer.read, wrapX_mod, wrapY_mod]

/-- An element of the linear array lies at the wrapped `(x, y)` exactly when its index is that of `(x, y)`. -/
theorem wrap_element_iff {k : Nat} (hk : k < 2048) (x y : Nat) :
    (wrapX (k % 64) = wrapX x ∧ wrapY (k / 64) = wrapY y) ↔ k = pixelIndex x y := by
  simp only [wrapX, wrapY, pixelIndex, Config.fbWidth, Config.fbHeight, Fin.mk.injEq]
  omega

/-- An element after a pixel write: the new value at the index of the pixel, the old one elsewhere. -/
theorem Framebuffer.element_write (f : Framebuffer) (x y : Nat) (b : Bool) {k : Nat} (hk : k < 2048) :
    (f.write x y b).element k = if k = pixelIndex x y then b else f.element k := by
  simp only [Framebuffer.element, Framebuffer.read_write, wrap_element_iff hk]

/-- Settles O27: reads and writes depend on the wrapped coordinates alone, and these name one element. -/
theorem framebufferWraps : Obligations.FramebufferWraps := by
  refine ⟨fun f x y => (f.element_pixelIndex x y).symm, fun f x y b => ?_, fun f x y _ b hk => f.element_write x y b hk,
    fun _ => Framebuffer.read_cleared _ _⟩
  simp only [Framebuffer.write, wrapX_mod, wrapY_mod]

/-! ## The keypad (R35, R64) -/

/-- Two samples with the same level at every key are the same. -/
theorem eq_of_keyGet {a b : BitVec 16} (h : ∀ k, keyGet a k = keyGet b k) : a = b :=
  BitVec.eq_of_getLsbD_eq fun k hk => h ⟨k, hk⟩

/-- The last write of a key wins. -/
theorem keySet_keySet_same (keys : BitVec 16) (k : RegNo) (b c : Bool) :
    keySet (keySet keys k b) k c = keySet keys k c := by
  refine eq_of_keyGet fun i => ?_
  simp only [keyGet_keySet]
  by_cases hi : i = k <;> simp only [hi, if_true, if_false]

/-- Writes of two keys come out the same in either order. -/
theorem keySet_comm (keys : BitVec 16) {k j : RegNo} (hjk : j ≠ k) (b c : Bool) :
    keySet (keySet keys k b) j c = keySet (keySet keys j c) k b := by
  refine eq_of_keyGet fun i => ?_
  simp only [keyGet_keySet]
  by_cases hi : i = j
  · subst hi; rw [if_pos rfl, if_neg hjk, if_pos rfl]
  · simp only [if_neg hi]

/-- Settles O49: the level of every key after a `set_key` determines the sample. -/
theorem keypadIsLevelState : Obligations.KeypadIsLevelState := by
  intro keys k j b c
  refine ⟨?_, fun hjk => ?_, keySet_keySet_same keys k b c, fun hjk => keySet_comm keys hjk b c⟩
  · rw [keyGet_keySet, if_pos rfl]
  · rw [keyGet_keySet, if_neg hjk]

end Sys2Proof.Machine

/-! The decoder, the encoder and the opcode table agree (spec/30_encoding.md): every word is the word of one well-formed
instruction, to which it decodes, or lies in one of the five families of R88. -/

namespace Sys2Proof

/-! ## Words with given fields (R81, R82) -/

section
variable {op : Word} {f : BitVec 4} (hf : (famField op).toNat = f.toNat)
include hf

theorem encodeXYN_of_fields {n : BitVec 4} (hn : (nField op).toNat = n.toNat) :
    encodeXYN f (xField op) (yField op) n = op := by
  rw [← BitVec.eq_of_toNat_eq hf, ← BitVec.eq_of_toNat_eq hn, encodeXYN_fields]

theorem encodeXNN_of_fields {nn : Byte} (hnn : (nnField op).toNat = nn.toNat) : encodeXNN f (xField op) nn = op := by
  rw [← BitVec.eq_of_toNat_eq hf, ← BitVec.eq_of_toNat_eq hnn, encodeXNN_fields]

theorem encodeNNN_of_fields {nnn : BitVec 12} (hnnn : nnnField op = nnn) : encodeNNN f nnn = op := by
  rw [← BitVec.eq_of_toNat_eq hf, ← hnnn, encodeNNN_fields]

end

/-! ## What the decoder answers (R86 to R88) -/

/-- SYS is the one instruction with a side condition (R93, R100). -/
theorem Instr.wellFormed_sys_iff (nnn : BitVec 12) :
    (Instr.sys nnn).WellFormed ↔ nnn ≠ 0x0E0#12 ∧ nnn ≠ 0x0EE#12 := by
  simp [Instr.WellFormed, Instr.wellFormed]

/-- The five families of R88's table, in the fields of R81. -/
def IllegalWord (op : Word) : Prop :=
  ((famField op).toNat = 0x5 ∧ (nField op).toNat ≠ 0) ∨
  ((famField op).toNat = 0x8 ∧ (nField op).toNat ∈ [0x8, 0x9, 0xA, 0xB, 0xC, 0xD, 0xF]) ∨
  ((famField op).toNat = 0x9 ∧ (nField op).toNat ≠ 0) ∨
  ((famField op).toNat = 0xE ∧ (nnField op).toNat ∉ [0x9E, 0xA1]) ∨
  ((famField op).toNat = 0xF ∧ (nnField op).toNat ∉ [0x07, 0x0A, 0x15, 0x18, 0x1E, 0x29, 0x33, 0x55, 0x65])

/-- A right answer for a word: the well-formed instruction whose word it is, or the rejection of an illegal word. -/
inductive RightAnswer (op : Word) : Except DecodeReject Instr → Prop
  | instr {i : Instr} (henc : encode i = op) (hwf : i.WellFormed) : RightAnswer op (.ok i)
  | reject {e : DecodeReject} (hill : IllegalWord op) : RightAnswer op (.error e)

section
variable {op : Word}

theorem rightAnswer_decodeFamily0 (hf : (famField op).toNat = 0x0) : RightAnswer op (.ok (decodeFamily0 op)) := by
  unfold decodeFamily0
  split
  next h => exact .instr (encodeNNN_of_fields (f := 0) hf h) rfl
  next h0 =>
    split
    next h => exact .instr (encodeNNN_of_fields (f := 0) hf h) rfl
    next h1 => exact .instr (encodeNNN_of_fields hf rfl) ((Instr.wellFormed_sys_iff _).mpr ⟨h0, h1⟩)

theorem rightAnswer_decodeFamily5 (hf : (famField op).toNat = 0x5) : RightAnswer op (decodeFamily5 op) := by
  unfold decodeFamily5
  split
  next hn => exact .instr (encodeXYN_of_fields hf (congrArg BitVec.toNat hn)) rfl
  next hn => exact .reject (.inl ⟨hf, fun h => hn (BitVec.eq_of_toNat_eq h)⟩)

theorem rightAnswer_decodeFamily8 (hf : (famField op).toNat = 0x8) : RightAnswer op (decodeFamily8 op) := by
  unfold decodeFamily8
  split
  case h_10 =>
    have hlt := (nField op).isLt
    refine .reject (.inr (.inl ⟨hf, ?_⟩))
    simp only [List.mem_cons, List.not_mem_nil, imp_false] at *
    omega
  all_goals exact .instr (encodeXYN_of_fields hf ‹_›) rfl

theorem rightAnswer_decodeFamily9 (hf : (famField op).toNat = 0x9) : RightAnswer op (decodeFamily9 op) := by
  unfold decodeFamily9
  split
  next hn => exact .instr (encodeXYN_of_fields hf (congrArg BitVec.toNat hn)) rfl
  next hn => exact .reject (.inr (.inr (.inl ⟨hf, fun h => hn (BitVec.eq_of_toNat_eq h)⟩)))

theorem rightAnswer_decodeFamilyE (hf : (famField op).toNat = 0xE) : RightAnswer op (decodeFamilyE op) := by
  unfold decodeFamilyE
  split
  case h_3 => exact .reject (.inr (.inr (.inr (.inl ⟨hf, by simp_all⟩))))
  all_goals exact .instr (encodeXNN_of_fields hf ‹_›) rfl

theorem rightAnswer_decodeFamilyF (hf : (famField op).toNat = 0xF) : RightAnswer op (decodeFamilyF op) := by
  unfold decodeFamilyF
  split
  case h_10 => exact .reject (.inr (.inr (.inr (.inr ⟨hf, by simp_all⟩))))
  all_goals exact .instr (encodeXNN_of_fields hf ‹_›) rfl

end

/-- The decoder answers right on every word: the other families have one row each (R87). -/
theorem rightAnswer_decodeWord (op : Word) : RightAnswer op (decodeWord op) := by
  unfold decodeWord
  split
  case h_1 hf => exact rightAnswer_decodeFamily0 hf
  case h_6 hf => exact rightAnswer_decodeFamily5 hf
  case h_9 hf => exact rightAnswer_decodeFamily8 hf
  case h_10 hf => exact rightAnswer_decodeFamily9 hf
  case h_14 hf => exact .instr (encodeXYN_of_fields hf rfl) rfl
  case h_15 hf => exact rightAnswer_decodeFamilyE hf
  case h_16 =>
    have hlt := (famField op).isLt
    simp only [imp_false] at *
    exact rightAnswer_decodeFamilyF (by omega)
  case h_2 hf | h_3 hf | h_11 hf | h_12 hf => exact .instr (encodeNNN_of_fields hf rfl) rfl
  case h_4 hf | h_5 hf | h_7 hf | h_8 hf | h_13 hf => exact .instr (encodeXNN_of_fields hf rfl) rfl

/-- What decodes is the word of the answer, which is well-formed. -/
theorem encode_of_decodeWord {op : Word} {i : Instr} (h : decodeWord op = .ok i) : encode i = op ∧ i.WellFormed := by
  have hans := h ▸ rightAnswer_decodeWord op
  cases hans with
  | instr henc hwf => exact ⟨henc, hwf⟩

theorem illegalWord_of_decodeWord {op : Word} {e : DecodeReject} (h : decodeWord op = .error e) : IllegalWord op := by
  have hans := h ▸ rightAnswer_decodeWord op
  cases hans with
  | reject hill => exact hill

/-- No instruction is encoded as an illegal word: its fixed `N` or `NN` is one of its family. -/
theorem not_illegalWord_encode (i : Instr) : ¬ IllegalWord (encode i) := by
  unfold IllegalWord
  cases i
  case cls | ret => decide
  all_goals simp [encode]

theorem decodeWord_error_iff (op : Word) : (∃ e, decodeWord op = .error e) ↔ IllegalWord op := by
  refine ⟨fun ⟨e, h⟩ => illegalWord_of_decodeWord h, fun hill => ?_⟩
  cases h : decodeWord op with
  | error e => exact ⟨e, rfl⟩
  | ok i =>
    obtain ⟨rfl, -⟩ := encode_of_decodeWord h
    exact absurd hill (not_illegalWord_encode i)

/-- Settles O2: an instruction is a right answer only for its own word. -/
theorem encodeInvertsDecode : Obligations.EncodeInvertsDecode := fun _ _ => encode_of_decodeWord

/-- Decoding finds the family, the fixed `N` or `NN`, and the operands where the encoding format put them (R82, R86). -/
theorem decodeWord_encode {i : Instr} (hi : i.WellFormed) : decodeWord (encode i) = .ok i := by
  cases i
  case cls | ret => decide
  case sys nnn =>
    obtain ⟨h0, h1⟩ := (Instr.wellFormed_sys_iff nnn).mp hi
    simp [encode, decodeWord, decodeFamily0, h0, h1]
  case jp | call | ldI | jpV0 | seImm | sneImm | ldImm | addImm | rnd | drw => simp [encode, decodeWord]
  case seReg | sneReg => simp [encode, decodeWord, decodeFamily5, decodeFamily9]
  case ldReg | orReg | andReg | xorReg | addReg | sub | shr | subn | shl => simp [encode, decodeWord, decodeFamily8]
  case skp | sknp => simp [encode, decodeWord, decodeFamilyE]
  case ldVxDt | ldVxK | ldDtVx | ldStVx | addI | ldF | ldB | storeRegs | loadRegs =>
    simp [encode, decodeWord, decodeFamilyF]

/-- Settles O1. -/
theorem decodeInvertsEncode : Obligations.DecodeInvertsEncode := fun _ => decodeWord_encode

/-! ## The opcode table (R87) -/

section
variable {op b : Word} {build : Word → Instr} {rows : List OpcodeRow}

@[simp] theorem firstMatch_nil : firstMatch op [] = none := rfl

/-- A row of a fixed word. -/
@[simp] theorem firstMatch_FFFF : firstMatch op (⟨0xFFFF#16, b, build⟩ :: rows) =
    if (famField op).toNat = b.toNat / 4096 ∧ (nnnField op).toNat = b.toNat % 4096 then some (build op)
    else firstMatch op rows := by
  have h : op = b ↔ (famField op).toNat = b.toNat / 4096 ∧ (nnnField op).toNat = b.toNat % 4096 := by
    rw [famField_toNat, nnnField_toNat, ← BitVec.toNat_inj]
    omega
  simp only [firstMatch, and_FFFF, h]

/-- A row of format NNN or XNN, or of XYN with `N` free. -/
@[simp] theorem firstMatch_F000 (hb : b.toNat % 4096 = 0) : firstMatch op (⟨0xF000#16, b, build⟩ :: rows) =
    if (famField op).toNat = b.toNat / 4096 then some (build op) else firstMatch op rows := by
  have h : op &&& 0xF000#16 = b ↔ (famField op).toNat = b.toNat / 4096 := by
    rw [and_F000, ← BitVec.toNat_inj, encodeNNN_toNat, BitVec.toNat_zero]
    omega
  simp only [firstMatch, h]

/-- A row of format XYN with `N` fixed. -/
@[simp] theorem firstMatch_F00F (hb : b.toNat / 16 % 256 = 0) : firstMatch op (⟨0xF00F#16, b, build⟩ :: rows) =
    if (famField op).toNat = b.toNat / 4096 ∧ (nField op).toNat = b.toNat % 16 then some (build op)
    else firstMatch op rows := by
  have h : op &&& 0xF00F#16 = b ↔ (famField op).toNat = b.toNat / 4096 ∧ (nField op).toNat = b.toNat % 16 := by
    have hn := (nField op).isLt
    rw [and_F00F, ← BitVec.toNat_inj, encodeXYN_toNat, Fin.val_zero]
    omega
  simp only [firstMatch, h]

/-- A row of format X. -/
@[simp] theorem firstMatch_F0FF (hb : b.toNat / 256 % 16 = 0) : firstMatch op (⟨0xF0FF#16, b, build⟩ :: rows) =
    if (famField op).toNat = b.toNat / 4096 ∧ (nnField op).toNat = b.toNat % 256 then some (build op)
    else firstMatch op rows := by
  have h : op &&& 0xF0FF#16 = b ↔ (famField op).toNat = b.toNat / 4096 ∧ (nnField op).toNat = b.toNat % 256 := by
    have hnn := (nnField op).isLt
    rw [and_F0FF, ← BitVec.toNat_inj, encodeXNN_toNat, Fin.val_zero]
    omega
  simp only [firstMatch, h]

end

/-- The word of an instruction matches the row of the instruction and none before it. -/
theorem firstMatch_encode {i : Instr} (hi : i.WellFormed) : firstMatch (encode i) opcodeTable = some i := by
  simp only [opcodeTable, opcodeRowsLow, opcodeRowsHigh, List.cons_append, List.nil_append]
  cases i
  case cls | ret => rfl
  case sys nnn =>
    obtain ⟨h0, h1⟩ := (Instr.wellFormed_sys_iff nnn).mp hi
    have hcls : nnn.toNat ≠ 0x0E0 := fun h => h0 (BitVec.eq_of_toNat_eq h)
    have hret : nnn.toNat ≠ 0x0EE := fun h => h1 (BitVec.eq_of_toNat_eq h)
    simp [encode, hcls, hret]
  all_goals simp [encode]

/-- An illegal word matches none of the rows of its family, nor a row of another. -/
theorem firstMatch_illegalWord {op : Word} (hop : IllegalWord op) : firstMatch op opcodeTable = none := by
  simp only [opcodeTable, opcodeRowsLow, opcodeRowsHigh, List.cons_append, List.nil_append]
  rcases hop with ⟨hf, hn⟩ | ⟨hf, hn⟩ | ⟨hf, hn⟩ | ⟨hf, hn⟩ | ⟨hf, hn⟩
  case inr.inl =>
    simp only [List.mem_cons, List.not_mem_nil, or_false] at hn
    rcases hn with h | h | h | h | h | h | h <;> simp [hf, h]
  all_goals simp_all

/-- The table and the dispatching decoder read every word alike. -/
theorem toOption_decodeWord (op : Word) : (decodeWord op).toOption = firstMatch op opcodeTable := by
  cases h : decodeWord op with
  | ok i =>
    obtain ⟨rfl, hwf⟩ := encode_of_decodeWord h
    exact (firstMatch_encode hwf).symm
  | error e => exact (firstMatch_illegalWord (illegalWord_of_decodeWord h)).symm

/-- Two rows that match one word agree on the bits that both masks keep. -/
theorem OpcodeRow.bits_agree {op : Word} {r q : OpcodeRow} (hr : op &&& r.mask = r.bits) (hq : op &&& q.mask = q.bits) :
    r.bits &&& q.mask = q.bits &&& r.mask := by
  rw [← hr, ← hq, BitVec.and_assoc, BitVec.and_assoc, BitVec.and_comm r.mask]

/-- The only rows that agree on the bits both masks keep are CLS and RET with SYS after them (R87). -/
theorem opcodeTable_overlaps : opcodeTable.Pairwise fun r q => r.bits &&& q.mask = q.bits &&& r.mask →
    (r.bits = 0x00E0#16 ∨ r.bits = 0x00EE#16) ∧ q.mask = 0xF000#16 ∧ q.bits = 0x0000#16 := by decide

/-- Settles O3: the rows match the words that decode to their instructions, and only CLS and RET overlap a later row, SYS. -/
theorem decoderTakesFirstMatchingRow : Obligations.DecoderTakesFirstMatchingRow := by
  refine ⟨rfl, toOption_decodeWord, fun op j k r q hj hk hjk hr hq => ?_⟩
  obtain ⟨hjlt, rfl⟩ := List.getElem?_eq_some_iff.mp hj
  obtain ⟨hklt, rfl⟩ := List.getElem?_eq_some_iff.mp hk
  exact List.pairwise_iff_getElem.mp opcodeTable_overlaps j k hjlt hklt hjk (OpcodeRow.bits_agree hr hq)

/-- Settles O5: the five families of the table, read as arithmetic. -/
theorem illegalWordsOfFiveFamilies : Obligations.IllegalWordsOfFiveFamilies := by
  intro op
  rw [decodeWord_error_iff]
  simp only [IllegalWord, famField_toNat, nField_toNat, nnField_toNat]

theorem nnnField_eq_setWidth (op : Word) : nnnField op = op.setWidth 12 :=
  (BitVec.setWidth_eq_extractLsb' (by decide)).symm

/-- Settles O4: below 0x1000 `NNN` is the whole word. -/
theorem familyZeroPriority : Obligations.FamilyZeroPriority := by
  refine ⟨by decide, by decide, fun op hlt h0 h1 => ?_, toOption_decodeWord⟩
  have hop : encode (.sys (op.setWidth 12)) = op := by
    rw [← nnnField_eq_setWidth]
    exact encodeNNN_of_fields (by rw [famField_toNat, Nat.div_eq_of_lt hlt]; rfl) rfl
  have hwf : (Instr.sys (op.setWidth 12)).WellFormed :=
    (Instr.wellFormed_sys_iff _).mpr ⟨fun h => h0 (by rw [← hop, h]; rfl), fun h => h1 (by rw [← hop, h]; rfl)⟩
  simpa only [hop] using decodeWord_encode hwf

/-- Settles O6, by running the decoder. -/
theorem writtenWordsDecode : Obligations.WrittenWordsDecode := by
  unfold Obligations.WrittenWordsDecode
  decide

/-! ## A table word as bytes (R55) -/

/-- The two bytes of a table word, put together again. -/
theorem tableWordBytes_toNat (op : Word) :
    ∃ hi lo, tableWordBytes 16 op.toNat = [hi, lo] ∧ Word.ofBytes hi lo = op := by
  refine ⟨_, _, rfl, BitVec.eq_of_toNat_eq ?_⟩
  have hlt := op.isLt
  rw [Word.ofBytes, toNat_append_eq, BitVec.toNat_ofNat, BitVec.toNat_ofNat]
  omega

theorem decodeTableWord_toNat (op : Word) : decodeTableWord 16 op.toNat = (decodeWord op).toOption := by
  obtain ⟨hi, lo, hbytes, rfl⟩ := tableWordBytes_toNat op
  have hlt : ¬ 65536 ≤ (Word.ofBytes hi lo).toNat % 2 ^ 16 := by omega
  rw [decodeTableWord, if_neg hlt, hbytes, decode]
  cases decodeWord (Word.ofBytes hi lo) <;> rfl

namespace Machine

/-! ## The step around the decoded instruction (R84, R85) -/

/-- After execution a running core ticks and latches, and a halted one stays as it is (R84, R188). -/
theorem State.finish_eq (s : State) :
    s.finish = if s.fault.cause = .running then ((s.tick s.input.tickDue).latch s.input.keys).nextInput else s := by
  split
  next h => exact State.finish_running (s.not_halted_iff.mpr h)
  next h => exact State.finish_halted (s.halted_iff.mpr h)

/-- Settles O8: the halted test, the fetch and the decoding come out as the hypotheses say. -/
theorem stepRunsDecodedInstruction : Obligations.StepRunsDecodedInstruction := by
  intro s i hr hp hd
  have hrun : ¬ s.halted = true := fun h => s.halted_iff.mp h hr
  have hfetch : s.fetch? = some s.wordAtPc := by rw [State.fetch?_eq_wordAtPc, if_pos hp]
  simp only [step, if_neg hrun, hfetch, hd, State.finish_eq]
  rfl

/-! ## The placed word (R55, R85) -/

/-- Bytes are placed at a fetchable `pc`, the old one or `PC_RESET` (log 12). -/
theorem State.placeAtPc_pc_lt (s : State) (bs : List Byte) : (s.placeAtPc bs).pc.toNat + 1 < 4096 := by
  unfold State.placeAtPc
  dsimp only
  split
  next h =>
    rcases (inMemory_iff _ _).mp h with h | h
    · cases h
    · exact h
  · decide

/-- Settles O26: the fetch reads the two bytes back from where they were placed, which is in memory. -/
theorem placedWordIsFetched : Obligations.PlacedWordIsFetched := by
  intro s op
  refine ⟨rfl, ?_, decodeTableWord_toNat op⟩
  obtain ⟨hi, lo, hbytes, rfl⟩ := tableWordBytes_toNat op
  rw [State.withFetchWord, hbytes, State.fetch?_eq, if_pos (s.placeAtPc_pc_lt _)]
  simp [State.placeAtPc, Memory.read_writeList]

end Machine

end Sys2Proof

/-! Control transfer (spec/40_flow.md): what SYS, RET, JP, CALL and JP V0 do to `pc`, `sp` and the stack, and that they leave the
rest. -/

namespace Sys2Proof.Machine

/-! ## Frames -/

/-- A frame may leave out every part that is kept after all. -/
theorem KeepsAllBut.of_kept {regs : List RegNo} {ps qs : List Part} {s t : State} (h : KeepsAllBut regs ps s t)
    (hps : ∀ p ∈ ps, p ∉ qs → Part.Kept s t p) : KeepsAllBut regs qs s t := by
  obtain ⟨hregs, hparts⟩ := h
  refine ⟨hregs, fun p hq => ?_⟩
  by_cases hp : p ∈ ps
  · exact hps p hp hq
  · exact hparts p hp

/-- The stores that control transfer and fault entry write, with any values. -/
theorem keepsAllBut_control (s : State) (pc : Word) (sp : Fin 17) (stack : Vector Word 16) (fault : FaultRecord)
    (sndZero dispWritten : Bool) :
    KeepsAllBut [] [.pc, .sp, .stack, .fault, .sndZero, .dispWritten] s
      { s with
        pc := pc, sp := sp, stack := stack, fault := fault, sndZero := sndZero, dispWritten := dispWritten } := by
  refine ⟨fun _ _ => rfl, fun p hp => ?_⟩
  cases p
  case pc | sp | stack | fault | sndZero | dispWritten => simp at hp
  case memory => exact fun _ => rfl
  case picture => exact fun _ _ => rfl
  case inputs => exact ⟨rfl, rfl⟩
  case index | delay | sound | keyPrev => rfl

/-- The stores that a control transfer writes when it does not fault. -/
theorem keepsAllBut_pc_sp_stack (s : State) (pc : Word) (sp : Fin 17) (stack : Vector Word 16) :
    KeepsAllBut [] [.pc, .sp, .stack] s { s with pc := pc, sp := sp, stack := stack } :=
  (keepsAllBut_control s pc sp stack s.fault s.sndZero s.dispWritten).of_kept (by simp [Part.Kept])

theorem State.setPc_keepsAllBut_pc (s : State) (a : Word) : KeepsAllBut [] [.pc] s (s.setPc a) :=
  (keepsAllBut_pc_sp_stack s a s.sp s.stack).of_kept (by simp [Part.Kept])

/-- Raising a cause in the execute phase is fault entry with the word of the instruction (R188). -/
theorem State.raise_takesFault (s : State) (c : Cause) (i : Instr) :
    ∃ t, s.raise c i = .next t ∧ TakesFault c (encode i) s t :=
  ⟨_, s.raise_eq c i, rfl, rfl, rfl, rfl,
    (keepsAllBut_control s _ s.sp s.stack _ false false).of_kept (by simp [Part.Kept])⟩

/-! ## RET (R101) -/

/-- With `k + 1` calls active, RET goes to entry `k` and leaves `k` active. -/
theorem exec_ret_of_succ {s : State} {k : Fin 16} (h : s.sp.val = k.val + 1) :
    exec .ret s = .next { s with pc := s.stack[k.val], sp := k.castSucc } := by
  have hk : s.sp.val - 1 = k.val := by omega
  have hpop : s.pop? = some (s.stack[k.val], { s with sp := k.castSucc }) :=
    State.pop?_eq_some.mpr ⟨by omega, hk ▸ k.isLt, by simp only [hk], by simp only [hk]; rfl⟩
  simp only [exec, execRet, hpop]
  rfl

theorem exec_ret_of_empty {s : State} (h : s.sp.val = 0) : exec .ret s = s.raise .stackUnderflow .ret := by
  simp only [exec, execRet, State.pop?_eq_none.mpr h]

/-- RET after a CALL with a free entry undoes it but for the entry written: it answers the address the CALL pushed. -/
theorem exec_ret_of_exec_call {nnn : BitVec 12} {s t : State} (hs : s.sp.val < 16) (h : exec (.call nnn) s = .next t) :
    exec .ret t.advance = .next { s with stack := s.stack.set s.sp.val s.pc hs } := by
  rw [exec_call_of_lt nnn hs] at h
  cases h
  rw [exec_ret_of_succ (k := ⟨s.sp.val, hs⟩) rfl]
  simp [State.advance]

/-- Settles O29: a pop below `k + 1` calls, fault entry with none, and the pop of what a CALL has just pushed. -/
theorem retPopsReturnAddress : Obligations.RetPopsReturnAddress := by
  refine ⟨decodeWord_encode (i := .ret) rfl, fun s k hk => ?_, fun s h0 => ?_, fun nnn s t hs h => ?_⟩
  · exact ⟨_, exec_ret_of_succ hk, rfl, rfl, (keepsAllBut_pc_sp_stack s _ _ s.stack).of_kept (by simp [Part.Kept])⟩
  · rw [exec_ret_of_empty h0]
    exact s.raise_takesFault .stackUnderflow .ret
  · exact ⟨_, exec_ret_of_exec_call hs h, rfl, rfl, (keepsAllBut_pc_sp_stack s s.pc s.sp _).of_kept (by simp [Part.Kept])⟩

/-! ## SYS (R100), the jumps (R102, R104) and CALL (R103) -/

/-- Settles O28: but for the words of CLS and RET, `0NNN` is SYS, whose meaning is the fault. -/
theorem sysRaisesDecodeError : Obligations.SysRaisesDecodeError := fun nnn s =>
  ⟨fun hcls hret => decodeWord_encode (i := .sys nnn) ((Instr.wellFormed_sys_iff nnn).mpr ⟨hcls, hret⟩),
    s.raise_takesFault .decodeError (.sys nnn)⟩

/-- The target of JP V0, NNN is the sum in 16 bits (R104). -/
theorem zextNNN_add_zextByte_toNat (nnn : BitVec 12) (b : Byte) :
    (zextNNN nnn + zextByte b).toNat = (nnn.toNat + b.toNat) % 65536 := by
  rw [BitVec.toNat_add, zextNNN_toNat, zextByte_toNat]

/-- Settles O30: both jumps are a write to `pc`. -/
theorem jumpsSetPc : Obligations.JumpsSetPc := fun nnn s =>
  ⟨decodeWord_encode (i := .jp nnn) rfl, decodeWord_encode (i := .jpV0 nnn) rfl,
    ⟨_, rfl, zextNNN_toNat nnn, s.setPc_keepsAllBut_pc _⟩,
    ⟨_, rfl, zextNNN_add_zextByte_toNat nnn (s.reg 0), s.setPc_keepsAllBut_pc _⟩⟩

/-- Settles O31: a push of the advanced `pc` with an entry free, fault entry with none. -/
theorem callPushesReturnAddress : Obligations.CallPushesReturnAddress := by
  refine fun nnn s => ⟨decodeWord_encode (i := .call nnn) rfl, fun k hk => ?_, fun hfull => ?_⟩
  · have hs : s.sp.val < 16 := hk ▸ k.isLt
    refine ⟨_, exec_call_of_lt nnn hs, ?_, fun j hj hjk => ?_, congrArg (· + 1) hk, zextNNN_toNat nnn,
      keepsAllBut_pc_sp_stack s _ _ _⟩
    · simp only [← hk, Vector.getElem_set_self]
    · exact Vector.getElem_set_ne hs hj (hk ▸ hjk.symm)
  · rw [exec_call_of_full nnn hfull]
    exact s.raise_takesFault .stackOverflow (.call nnn)

end Sys2Proof.Machine

/-! The conditional skips on register values (spec/41_skip.md): what SE and SNE do to `pc`, and which words of their families are
no instruction. -/

namespace Sys2Proof.Machine

/-! ## The skip -/

/-- A skip is a write to `pc`, whichever way its condition comes out (R110 to R113). -/
theorem State.skipIf_keepsAllBut_pc (s : State) (c : Bool) : KeepsAllBut [] [.pc] s (s.skipIf c) :=
  s.setPc_keepsAllBut_pc (if c then s.pc + 2 else s.pc)

theorem State.skipIf_beq_pc (s : State) (a b : Byte) :
    (s.skipIf (a == b)).pc = if a = b then s.pc + 2 else s.pc := by
  simp only [State.skipIf_pc, beq_iff_eq]

theorem State.skipIf_bne_pc (s : State) (a b : Byte) :
    (s.skipIf (a != b)).pc = if a = b then s.pc else s.pc + 2 := by
  simp only [State.skipIf_pc, bne_iff_ne, ite_not]

/-! ## The families 5 and 9 (R88) -/

/-- The families 5 and 9 hold one instruction each, with `N` fixed to 0. -/
theorem decodeWord_encodeXYN_error {f n : BitVec 4} (hf : f = 0x5#4 ∨ f = 0x9#4) (hn : n ≠ 0) (x y : RegNo) :
    ∃ e, decodeWord (encodeXYN f x y n) = .error e := by
  have hn' : n.toNat ≠ 0 := fun h => hn (BitVec.eq_of_toNat_eq h)
  rw [decodeWord_error_iff, IllegalWord, famField_encodeXYN, nField_encodeXYN]
  rcases hf with rfl | rfl
  · exact .inl ⟨rfl, hn'⟩
  · exact .inr (.inr (.inl ⟨rfl, hn'⟩))

/-- Settles O32: each of the four is a skip on its comparison, and the skip's rules give `pc` and the frame. -/
theorem skipsOnRegisterValues : Obligations.SkipsOnRegisterValues := fun x y nn s =>
  ⟨decodeWord_encode (i := .seImm x nn) rfl, decodeWord_encode (i := .sneImm x nn) rfl,
    decodeWord_encode (i := .seReg x y) rfl, decodeWord_encode (i := .sneReg x y) rfl,
    fun _ hn => ⟨decodeWord_encodeXYN_error (.inl rfl) hn x y, decodeWord_encodeXYN_error (.inr rfl) hn x y⟩,
    ⟨_, rfl, s.skipIf_beq_pc _ _, s.skipIf_keepsAllBut_pc _⟩,
    ⟨_, rfl, s.skipIf_bne_pc _ _, s.skipIf_keepsAllBut_pc _⟩,
    ⟨_, rfl, s.skipIf_beq_pc _ _, s.skipIf_keepsAllBut_pc _⟩,
    ⟨_, rfl, s.skipIf_bne_pc _ _, s.skipIf_keepsAllBut_pc _⟩⟩

end Sys2Proof.Machine

/-! Register load, arithmetic, logic, shifts and random (spec/42_alu.md): what each leaves in `VX` and `VF`, and that it writes no
other store. -/

namespace Sys2Proof.Machine

/-! ## Frames -/

section
variable (s : State) (x : RegNo)

/-- A write to the register file is a write to no other store. -/
theorem keepsAllBut_regs {rs : List RegNo} (v : Vector Byte 16) (h : ∀ r ∉ rs, State.reg { s with V := v } r = s.reg r) :
    KeepsAllBut rs [] s { s with V := v } := by
  refine ⟨h, fun p _ => ?_⟩
  cases p
  case memory => exact fun _ => rfl
  case picture => exact fun _ _ => rfl
  case inputs => exact ⟨rfl, rfl⟩
  all_goals rfl

theorem State.setReg_keepsAllBut (b : Byte) : KeepsAllBut [x] [] s (s.setReg x b) := by
  refine keepsAllBut_regs s _ fun r hr => ?_
  exact (State.reg_setReg s x r b).trans (if_neg (by simpa using hr))

theorem State.resultThenFlag_keepsAllBut (a f : Byte) : KeepsAllBut [x, 15] [] s (s.resultThenFlag x a f) := by
  refine keepsAllBut_regs s _ fun r hr => ?_
  obtain ⟨hx, hvf⟩ : r ≠ x ∧ r ≠ 15 := by simpa using hr
  exact (s.reg_resultThenFlag x r a f).trans (by rw [if_neg hvf, if_neg hx])

theorem State.flagThenShift_keepsAllBut (f : Byte) (shift : Byte → Byte) :
    KeepsAllBut [x, 15] [] s (s.flagThenShift x f shift) := by
  refine keepsAllBut_regs s _ fun r hr => ?_
  obtain ⟨hx, hvf⟩ : r ≠ x ∧ r ≠ 15 := by simpa using hr
  exact (s.reg_flagThenShift x r f shift).trans (by rw [if_neg hx, if_neg hvf])

/-! ## `VX` and `VF` after a write (R133) -/

theorem State.reg_setReg_self (b : Byte) : (s.setReg x b).reg x = b := by rw [State.reg_setReg, if_pos rfl]

theorem State.reg_resultThenFlag_vf (a f : Byte) : (s.resultThenFlag x a f).reg 15 = f := by
  rw [State.reg_resultThenFlag, if_pos rfl]

theorem State.reg_flagThenShift_vf (f : Byte) (shift : Byte → Byte) :
    (s.flagThenShift x f shift).reg 15 = if x = 15 then shift f else f := by
  rw [State.reg_flagThenShift]
  by_cases hx : x = 15
  · rw [if_pos hx.symm, if_pos hx, if_pos hx]
  · rw [if_neg (Ne.symm hx), if_pos rfl, if_neg hx]

section
variable {s x} (hx : x ≠ 15)
include hx

theorem State.reg_resultThenFlag_dest (a f : Byte) : (s.resultThenFlag x a f).reg x = a := by
  rw [State.reg_resultThenFlag, if_neg hx, if_pos rfl]

theorem State.reg_flagThenShift_dest (f : Byte) (shift : Byte → Byte) :
    (s.flagThenShift x f shift).reg x = shift (s.reg x) := by
  rw [State.reg_flagThenShift, if_pos rfl, if_neg hx]

end

end

/-! ## The bit moved out by a shift (R128, R130) -/

theorem and_one_eq_flagByte (v : Byte) : v &&& 0x01#8 = flagByte (v.getLsbD 0) := by
  rw [BitVec.and_one_eq_setWidth_ofBool_getLsbD]
  cases v.getLsbD 0 <;> rfl

theorem shiftedOutRight_eq_flagByte (v : Byte) : shiftedOutRight v = flagByte (v.getLsbD 0) := and_one_eq_flagByte v

theorem shiftedOutLeft_eq_flagByte (v : Byte) : shiftedOutLeft v = flagByte (v.getLsbD 7) :=
  (and_one_eq_flagByte (v >>> 7)).trans (by rw [BitVec.getLsbD_ushiftRight])

/-- SHR with `X = 15` moves the flag it has written out of `VF`. -/
theorem shiftedOutRight_ushiftRight (v : Byte) : shiftedOutRight v >>> 1 = 0 := by
  rw [shiftedOutRight_eq_flagByte]
  cases v.getLsbD 0 <;> rfl

/-- SHL with `X = 15` doubles the flag it has written. -/
theorem shiftedOutLeft_shiftLeft (v : Byte) : shiftedOutLeft v <<< 1 = if v.getLsbD 7 then 2 else 0 := by
  rw [shiftedOutLeft_eq_flagByte]
  cases v.getLsbD 7 <;> rfl

theorem ushiftRight_one_toNat (v : Byte) : (v >>> 1).toNat = v.toNat / 2 := by
  rw [BitVec.toNat_ushiftRight, Nat.shiftRight_one]

theorem shiftLeft_one_toNat (v : Byte) : (v <<< 1).toNat = v.toNat * 2 % 256 := by
  rw [BitVec.toNat_shiftLeft, Nat.shiftLeft_eq, Nat.pow_one]

theorem shiftedOutLeft_shiftLeft_toNat (v : Byte) : (shiftedOutLeft v <<< 1).toNat = if v.toNat ≥ 128 then 2 else 0 := by
  have := v.isLt
  rw [shiftLeft_one_toNat, shiftedOutLeft_toNat]
  split <;> omega

/-! ## The table of R133 -/

/-- Settles O39: the write order gives `VF` and `VX`, and the arithmetic of R132 gives the values written. -/
theorem finalVfTable : Obligations.FinalVfTable := by
  refine fun x y s =>
    ⟨⟨_, rfl, by rw [State.reg_resultThenFlag_vf, carryFlag_toNat],
        fun hx => by rw [State.reg_resultThenFlag_dest hx, wrapSum_eq_add]⟩,
      ⟨_, rfl, s.reg_resultThenFlag_vf x _ _, fun hx => by rw [State.reg_resultThenFlag_dest hx, wrapDiff_eq_sub]⟩,
      ⟨_, rfl, s.reg_resultThenFlag_vf x _ _, fun hx => by rw [State.reg_resultThenFlag_dest hx, wrapDiff_eq_sub]⟩,
      ⟨_, rfl, ?shrFlag, fun hx => State.reg_flagThenShift_dest hx _ _⟩,
      ⟨_, rfl, ?shlFlag, fun hx => State.reg_flagThenShift_dest hx _ _⟩⟩
  case shrFlag =>
    rw [State.reg_flagThenShift_vf, shiftedOutRight_ushiftRight, shiftedOutRight_eq_flagByte]
    rfl
  case shlFlag =>
    rw [State.reg_flagThenShift_vf, shiftedOutLeft_shiftLeft, shiftedOutLeft_eq_flagByte]
    by_cases hx : x = 15
    · rw [if_pos hx, if_pos hx, hx]
    · rw [if_neg hx, if_neg hx, flagByte]

/-! ## Loads, moves, logic, random (R120 to R125, R131) -/

/-- Settles O33: both are one write to `VX`. -/
theorem loadsAndMoves : Obligations.LoadsAndMoves := fun x y nn s =>
  ⟨decodeWord_encode (i := .ldImm x nn) rfl, decodeWord_encode (i := .ldReg x y) rfl,
    ⟨_, rfl, s.reg_setReg_self x _, s.setReg_keepsAllBut x _⟩, ⟨_, rfl, s.reg_setReg_self x _, s.setReg_keepsAllBut x _⟩⟩

/-- Settles O34: one write of the wrapped sum to `VX`. -/
theorem addImmediateWrapsWithoutFlag : Obligations.AddImmediateWrapsWithoutFlag := fun x nn s =>
  ⟨decodeWord_encode (i := .addImm x nn) rfl, _, rfl, by rw [State.reg_setReg_self, wrapSum_toNat], s.setReg_keepsAllBut x _⟩

/-- Settles O35: each is one write to `VX`, of a byte known by its bits. -/
theorem logicIsBitwiseWithoutFlag : Obligations.LogicIsBitwiseWithoutFlag := fun x y s =>
  ⟨decodeWord_encode (i := .orReg x y) rfl, decodeWord_encode (i := .andReg x y) rfl, decodeWord_encode (i := .xorReg x y) rfl,
    ⟨_, rfl, fun _ => by rw [State.reg_setReg_self, BitVec.getLsbD_or], s.setReg_keepsAllBut x _⟩,
    ⟨_, rfl, fun _ => by rw [State.reg_setReg_self, BitVec.getLsbD_and], s.setReg_keepsAllBut x _⟩,
    ⟨_, rfl, fun _ => by rw [State.reg_setReg_self, BitVec.getLsbD_xor], s.setReg_keepsAllBut x _⟩⟩

/-- Settles O40: one write of the masked draw to `VX`. -/
theorem rndMasksTheDraw : Obligations.RndMasksTheDraw := fun x nn s =>
  ⟨decodeWord_encode (i := .rnd x nn) rfl, _, rfl, s.reg_setReg_self x _,
    fun k hk => by rw [State.reg_setReg_self, BitVec.getLsbD_and, hk, Bool.and_false], s.setReg_keepsAllBut x _⟩

/-! ## Sums, differences and shifts with their flag (R126 to R130) -/

/-- Settles O36: the sum, then the carry. -/
theorem addSetsCarryLast : Obligations.AddSetsCarryLast := fun x y s =>
  ⟨decodeWord_encode (i := .addReg x y) rfl, _, rfl, s.reg_resultThenFlag_vf x _ _,
    fun hx => by rw [State.reg_resultThenFlag_dest hx, wrapSum_toNat], s.resultThenFlag_keepsAllBut x _ _⟩

/-- Settles O37: the difference, then the not-borrow, with the operands in either order. -/
theorem subtractionsSetNotBorrowLast : Obligations.SubtractionsSetNotBorrowLast := fun x y s =>
  ⟨decodeWord_encode (i := .sub x y) rfl, decodeWord_encode (i := .subn x y) rfl,
    ⟨_, rfl, s.reg_resultThenFlag_vf x _ _, fun hx => by rw [State.reg_resultThenFlag_dest hx, wrapDiff_toNat],
      s.resultThenFlag_keepsAllBut x _ _⟩,
    ⟨_, rfl, s.reg_resultThenFlag_vf x _ _, fun hx => by rw [State.reg_resultThenFlag_dest hx, wrapDiff_toNat],
      s.resultThenFlag_keepsAllBut x _ _⟩⟩

/-- Settles O38: the flag, then the shift of `VX` as it stands after that write. -/
theorem shiftsUseVxAndWriteFlagFirst : Obligations.ShiftsUseVxAndWriteFlagFirst := by
  refine fun x y s => ⟨decodeWord_encode (i := .shr x y) rfl, decodeWord_encode (i := .shl x y) rfl,
    ⟨_, rfl, fun hx => ⟨?_, ?_⟩, fun hx => ?_, s.flagThenShift_keepsAllBut x _ _⟩,
    ⟨_, rfl, fun hx => ⟨?_, ?_⟩, fun hx => ?_, s.flagThenShift_keepsAllBut x _ _⟩⟩
  · rw [State.reg_flagThenShift_dest hx, ushiftRight_one_toNat]
  · rw [State.reg_flagThenShift_vf, if_neg hx, shiftedOutRight_toNat]
  · rw [State.reg_flagThenShift_vf, if_pos hx, shiftedOutRight_ushiftRight]
  · rw [State.reg_flagThenShift_dest hx, shiftLeft_one_toNat]
  · rw [State.reg_flagThenShift_vf, if_neg hx, shiftedOutLeft_toNat]
  · rw [State.reg_flagThenShift_vf, if_pos hx, shiftedOutLeft_shiftLeft_toNat, hx]

end Sys2Proof.Machine

/-! Index register and memory transfers (spec/43_index_mem.md): what they leave in `I`, in memory and in the registers, when they
take a DataFault, and that they leave the rest. -/

namespace Sys2Proof.Machine

/-! ## Frames -/

/-- Writes to the registers, to `I` and to memory keep every other part. -/
theorem Part.kept_of_regs_index_memory (s : State) (v : Vector Byte 16) (a : Word) (m : Memory) {p : Part}
    (hp : p ∉ [.memory, .index]) : Part.Kept s { s with V := v, I := a, mem := m } p := by
  cases p
  case memory | index => simp at hp
  case picture => exact fun _ _ => rfl
  case inputs => exact ⟨rfl, rfl⟩
  all_goals rfl

theorem keepsAllBut_memory_index (s : State) (a : Word) (m : Memory) :
    KeepsAllBut [] [.memory, .index] s { s with I := a, mem := m } :=
  ⟨fun _ _ => rfl, fun _ => Part.kept_of_regs_index_memory s s.V a m⟩

theorem State.setI_keepsAllBut_index (s : State) (a : Word) : KeepsAllBut [] [.index] s (s.setI a) :=
  (keepsAllBut_memory_index s a s.mem).of_kept (by simp [Part.Kept])

theorem keepsAllBut_memory (s : State) (m : Memory) : KeepsAllBut [] [.memory] s { s with mem := m } :=
  (keepsAllBut_memory_index s s.I m).of_kept (by simp [Part.Kept])

/-- A block load writes no part but the registers and `I`. -/
theorem State.setRegs_setI_kept (s : State) (bs : List Byte) (a : Word) {p : Part} (hp : p ≠ .index) :
    Part.Kept s ((s.setRegs bs).setI a) p := by
  by_cases hm : p = .memory
  · subst hm
    exact fun _ => rfl
  · exact Part.kept_of_regs_index_memory s _ a s.mem (by simp [hm, hp])

/-! ## Faults (R185) -/

/-- Where the rule of an instruction expects a fault, executing it is fault entry with that cause. -/
theorem exec_takesFault_of_expectedCause {i : Instr} {s : State} {c : Cause} (h : expectedCause i s = c) (hc : c ≠ .running) :
    ∃ t, exec i s = .next t ∧ TakesFault c (encode i) s t := by
  subst h
  rcases exec_cases i s with ⟨hrun, -⟩ | ⟨-, hraise⟩
  · exact absurd hrun hc
  · rw [hraise]
    exact s.raise_takesFault _ i

/-! ## Bytes stored from `I` upward -/

/-- Byte `k` of a run of writes is read at its place in the run. -/
theorem Memory.read_writeList_add (m : Memory) (a : Nat) {bs : List Byte} {k : Nat} (h : k < bs.length) :
    (m.writeList a bs).read (a + k) = bs[k] := by
  simp [Memory.read_writeList, h]

/-- A run of bytes that ends in memory is stored. -/
theorem State.storeBytes?_of_le {s : State} {bs : List Byte} (h : s.I.toNat + bs.length ≤ 4096) :
    s.storeBytes? (s.effAddr 0) bs = some { s with mem := s.mem.writeList (s.effAddr 0) bs } :=
  State.storeBytes?_eq_some.mpr ⟨(inMemory_iff _ _).mpr (.inr h), rfl⟩

/-! ## LD [I], Vx (R144) -/

section
variable (x : RegNo) {s : State}

theorem exec_storeRegs_of_lt (h : s.I.toNat + x.val < 4096) :
    exec (.storeRegs x) s =
      .next { s with mem := s.mem.writeList (s.effAddr 0) (s.blockRegs x), I := s.blockNextI x } := by
  have hlen : s.I.toNat + (s.blockRegs x).length ≤ 4096 := by rw [State.blockRegs_length]; omega
  simp only [exec, execStoreRegs, State.storeBytes?_of_le hlen]
  rfl

/-- Register `k` of a stored block is read at its place in the block. -/
theorem Memory.read_writeList_blockRegs (m : Memory) (a : Nat) {x k : RegNo} (hk : k ≤ x) :
    (m.writeList a (s.blockRegs x)).read (a + k.val) = s.reg k := by
  have hlen : k.val < (s.blockRegs x).length := by
    rw [State.blockRegs_length]
    exact Nat.lt_succ_of_le hk
  rw [Memory.read_writeList_add m a hlen, State.blockRegs_getElem]

end

/-- Settles O43: in range the block of registers is written as a run from `I`, out of range the range check raises the fault. -/
theorem blockStore : Obligations.BlockStore := by
  refine fun x s => ⟨decodeWord_encode (i := .storeRegs x) rfl, fun h => ?_,
    fun h => exec_takesFault_of_expectedCause (i := .storeRegs x) (if_pos h) nofun⟩
  refine ⟨_, exec_storeRegs_of_lt x h, fun k hk => Memory.read_writeList_blockRegs _ _ hk, fun a ha => ?_, rfl,
    s.blockNextI_toNat x, keepsAllBut_memory_index s _ _⟩
  exact Memory.read_writeList_outside _ _ _ _ (by rwa [State.blockRegs_length])

/-! ## LD Vx, [I] (R145) -/

/-- The bytes at `I, I + 1, ..., I + X`, in that order. -/
def State.blockBytes (s : State) (x : RegNo) : List Byte :=
  (List.range (blockCount x)).map fun k => s.mem.read (s.effAddr 0 + k)

section
variable (x : RegNo) {s : State}

theorem exec_loadRegs_of_lt (h : s.I.toNat + x.val < 4096) :
    exec (.loadRegs x) s = .next ((s.setRegs (s.blockBytes x)).setI (s.blockNextI x)) := by
  have hload : s.loadBytes? (s.effAddr 0) (blockCount x) = some (s.blockBytes x) :=
    State.loadBytes?_eq_some.mpr ⟨(inMemory_iff _ _).mpr (.inr h), rfl⟩
  simp only [exec, execLoadRegs, hload]

/-- A loaded block is byte `k` of it in `Vk`, up to `VX`, and the registers above as they were. -/
theorem State.reg_setRegs_blockBytes (k : RegNo) :
    (s.setRegs (s.blockBytes x)).reg k = if k ≤ x then s.mem.read (s.I.toNat + k.val) else s.reg k := by
  have hiff : k.val < (s.blockBytes x).length ↔ k ≤ x := by
    rw [State.blockBytes, List.length_map, List.length_range]
    exact Nat.lt_succ_iff
  rw [State.reg_setRegs]
  by_cases hk : k ≤ x
  · rw [dif_pos (hiff.mpr hk), if_pos hk]
    simp only [State.blockBytes, List.getElem_map, List.getElem_range]
    rfl
  · rw [dif_neg (mt hiff.mp hk), if_neg hk]

/-- A block load from where a block of the same length was stored takes the stored registers back (R145). -/
theorem exec_loadRegs_of_exec_storeRegs {x : RegNo} {t : State} (v : Vector Byte 16) (h : s.I.toNat + x.val < 4096)
    (ht : exec (.storeRegs x) s = .next t) :
    ∃ u, exec (.loadRegs x) { t with V := v, I := s.I } = .next u ∧ (∀ k ≤ x, u.reg k = s.reg k) ∧
      t.I = s.blockNextI x ∧ u.I = s.blockNextI x := by
  rw [exec_storeRegs_of_lt x h] at ht
  cases ht
  refine ⟨_, exec_loadRegs_of_lt x h, fun k hk => ?_, rfl, rfl⟩
  refine (State.reg_setRegs_blockBytes x k).trans ?_
  rw [if_pos hk]
  exact Memory.read_writeList_blockRegs _ _ hk

end

/-- Settles O44: in range the bytes from `I` are taken into the registers, out of range the range check raises the fault, and a
stored block is read back. -/
theorem blockLoad : Obligations.BlockLoad := fun x s =>
  ⟨decodeWord_encode (i := .loadRegs x) rfl,
    fun h => ⟨_, exec_loadRegs_of_lt x h, State.reg_setRegs_blockBytes x, s.blockNextI_toNat x,
      fun _ => s.setRegs_setI_kept _ _⟩,
    fun h => exec_takesFault_of_expectedCause (i := .loadRegs x) (if_pos h) nofun,
    fun _ v h ht => exec_loadRegs_of_exec_storeRegs v h ht⟩

/-! ## LD I, NNN; ADD I, Vx; LD F, Vx (R140, R141, R142) -/

/-- Settles O41: each is one write to `I`. -/
theorem indexLoads : Obligations.IndexLoads := fun nnn x s =>
  ⟨decodeWord_encode (i := .ldI nnn) rfl, decodeWord_encode (i := .addI x) rfl, decodeWord_encode (i := .ldF x) rfl,
    ⟨_, rfl, zextNNN_toNat nnn, s.setI_keepsAllBut_index _⟩,
    ⟨_, rfl, by rw [State.setI_I, BitVec.toNat_add, zextByte_toNat], s.setI_keepsAllBut_index _⟩,
    ⟨_, rfl, by rw [State.setI_I, fontAddr_toNat, Nat.zero_add], s.setI_keepsAllBut_index _⟩⟩

/-! ## LD B, Vx (R143) -/

theorem exec_ldB_of_lt (x : RegNo) {s : State} (h : s.I.toNat + 2 < 4096) :
    exec (.ldB x) s = .next { s with mem := s.mem.writeList (s.effAddr 0) (bcdDigits (s.reg x)) } := by
  simp only [exec, execLdB, State.storeBytes?_of_le (bs := bcdDigits (s.reg x)) h]

/-- Digit `k` of a stored byte is read at its place. -/
theorem Memory.read_writeList_bcdDigits_toNat (m : Memory) (a : Nat) (v : Byte) (k : Nat) (hk : k < 3) :
    ((m.writeList a (bcdDigits v)).read (a + k)).toNat = [v.toNat / 100, v.toNat / 10 % 10, v.toNat % 10][k] := by
  have hlen : k < (bcdDigits v).length := hk
  rw [Memory.read_writeList_add m a hlen]
  simp only [← bcdDigits_toNat, List.getElem_map]

/-- Settles O42: in range the three digits are written as a run from `I`, out of range the range check raises the fault. -/
theorem bcdStore : Obligations.BcdStore := by
  refine fun x s => ⟨decodeWord_encode (i := .ldB x) rfl, fun h => ?_,
    fun h => exec_takesFault_of_expectedCause (i := .ldB x) (if_pos h) nofun⟩
  have hdigit := s.mem.read_writeList_bcdDigits_toNat (s.effAddr 0) (s.reg x)
  exact ⟨_, exec_ldB_of_lt x h, hdigit 0 (by decide), hdigit 1 (by decide), hdigit 2 (by decide),
    fun a ha => Memory.read_writeList_outside _ _ _ _ ha, rfl, keepsAllBut_memory s _⟩

end Sys2Proof.Machine

/-! Display (spec/44_display.md): what CLS and DRW leave in the picture and in `VF`, that they leave the rest, and the law of a sprite
drawn twice. -/

namespace Sys2Proof.Machine

/-! ## Frames -/

/-- Showing a picture on top of a write to the registers writes the picture and `disp_written` besides (R150, R151). -/
theorem KeepsAllBut.display {regs : List RegNo} {s t : State} (h : KeepsAllBut regs [] s t) (f : Framebuffer) :
    KeepsAllBut regs [.picture, .dispWritten] s (t.display f) := by
  obtain ⟨hregs, hparts⟩ := h
  refine ⟨hregs, fun p hp => ?_⟩
  have hkept : Part.Kept s t p := hparts p List.not_mem_nil
  cases p
  case picture | dispWritten => simp at hp
  all_goals exact hkept

/-! ## CLS (R150) -/

/-- Settles O46: the cleared picture is shown, and no register is written. -/
theorem clsClearsThePicture : Obligations.ClsClearsThePicture :=
  ⟨decodeWord_encode (i := .cls) rfl, fun s =>
    ⟨_, rfl, Framebuffer.read_cleared, rfl, (keepsAllBut_regs s s.V fun _ _ => rfl).display _⟩⟩

/-! ## The sprite on the screen (R151, R152) -/

/-- A pixel at any coordinates is the one at the coordinates modulo the screen (R62). -/
theorem Framebuffer.read_mod (f : Framebuffer) (x y : Nat) : f.read (x % 64) (y % 32) = f.read x y := by
  simp [Framebuffer.read, wrapX, wrapY, Config.fbWidth, Config.fbHeight]

/-- The `n` bytes of the sprite at `I`, top row first. -/
def State.spriteRows (s : State) (n : Nat) : List Byte := (List.range n).map fun k => s.mem.read (s.effAddr 0 + k)

theorem State.spriteRows_length (s : State) (n : Nat) : (s.spriteRows n).length = n := by
  rw [State.spriteRows, List.length_map, List.length_range]

theorem State.spriteRows_getD (s : State) {n row : Nat} (h : row < n) :
    (s.spriteRows n).getD row 0 = s.mem.read (s.I.toNat + row) := by
  have hlen : row < (s.spriteRows n).length := by rwa [State.spriteRows_length]
  rw [List.getD_eq_getElem _ _ hlen]
  simp only [State.spriteRows, List.getElem_map, List.getElem_range]
  rfl

/-- The picture and the collision flag after the sprite of `n` rows at `I` is drawn at `(vx, vy)`. -/
def State.drawSprite (s : State) (vx vy n : Nat) : Framebuffer × Bool := drawRows vx vy (s.spriteRows n) (s.fb, false)

section
variable (s : State) (vx vy : Nat) {n px py : Nat}

/-- The sprite bit on a pixel is the one at the pixel's wrapped distances from the start, where these are in the sprite. -/
theorem spriteOn_eq :
    spriteOn s vx vy n px py =
      (decide (colFrom vx px < 8) && decide (rowFrom vy py < n) &&
        spriteBit ((s.spriteRows n).getD (rowFrom vy py) 0) (colFrom vx px)) := by
  by_cases hrow : rowFrom vy py < n
  · rw [s.spriteRows_getD hrow]
    rfl
  · have hrow' : ¬ (py + 32 - vy % 32) % 32 < n := hrow
    simp [spriteOn, hrow, hrow']

/-- The bit at column `col` and row `row` of a sprite lies on the pixel that far from the start, wrapped at the edges. -/
theorem spriteOn_wrapped {col row : Nat} (hc : col < 8) (hr : row < n) (hn : n ≤ 32) :
    spriteOn s vx vy n ((vx + col) % 64) ((vy + row) % 32) = spriteBit ((s.spriteRows n).getD row 0) col := by
  have hcol : colFrom vx ((vx + col) % 64) = col := by unfold colFrom; omega
  have hrow : rowFrom vy ((vy + row) % 32) = row := by unfold rowFrom; omega
  rw [spriteOn_eq, hcol, hrow]
  simp [hc, hr]

/-- Every pixel is XORed with the sprite bit on it (R151, R152). -/
theorem State.drawSprite_read (hn : n ≤ 32) (hx : px < 64) (hy : py < 32) :
    (s.drawSprite vx vy n).1.read px py = (s.readPixel px py ^^ spriteOn s vx vy n px py) := by
  rw [State.drawSprite, drawRows_read _ _ _ _ _ _ hx hy (by rwa [State.spriteRows_length]), State.spriteRows_length,
    spriteOn_eq]
  rfl

/-- The collision flag is up exactly when a sprite bit 1 lies on a pixel that was on (R151). -/
theorem State.drawSprite_collision (hn : n ≤ 32) :
    (s.drawSprite vx vy n).2 = true ↔
      ∃ px py, px < 64 ∧ py < 32 ∧ s.readPixel px py = true ∧ spriteOn s vx vy n px py = true := by
  rw [State.drawSprite, drawRows_collision _ _ _ _ (by rwa [State.spriteRows_length]), State.spriteRows_length]
  constructor
  · rintro (h | ⟨col, row, hc, hr, hpix, hbit⟩)
    · cases h
    · refine ⟨(vx + col) % 64, (vy + row) % 32, Nat.mod_lt _ (by decide), Nat.mod_lt _ (by decide), ?_, ?_⟩
      · exact (s.fb.read_mod _ _).trans hpix
      · rw [spriteOn_wrapped s vx vy hc hr hn, hbit]
  · rintro ⟨px, py, hx, hy, hpix, hon⟩
    have hcol : (vx + colFrom vx px) % 64 = px := by unfold colFrom; omega
    have hrow : (vy + rowFrom vy py) % 32 = py := by unfold rowFrom; omega
    rw [spriteOn_eq] at hon
    simp only [Bool.and_eq_true, decide_eq_true_eq] at hon
    obtain ⟨⟨hc, hr⟩, hbit⟩ := hon
    refine .inr ⟨colFrom vx px, rowFrom vy py, hc, hr, ?_, hbit⟩
    rw [← Framebuffer.read_mod, hcol, hrow]
    exact hpix

end

/-- Where a sprite falls depends on memory and `I` alone. -/
theorem spriteOn_congr {s t : State} (hmem : ∀ a, t.mem.read a = s.mem.read a) (hI : t.I = s.I) :
    spriteOn t = spriteOn s := by
  funext vx vy n px py
  simp only [spriteOn, hmem, hI]

/-! ## DRW (R151, R152) -/

theorem flagByte_eq_one_iff (b : Bool) : flagByte b = 1 ↔ b = true := by cases b <;> decide

theorem flagByte_eq_one_or_zero (b : Bool) : flagByte b = 1 ∨ flagByte b = 0 := by cases b <;> decide

/-- With its rows in memory, DRW writes the collision to `VF` and shows the picture with the sprite drawn. -/
theorem exec_drw_of_lt (x y : RegNo) {n : BitVec 4} {s : State} (h : n = 0 ∨ s.I.toNat + n.toNat - 1 < 4096) :
    exec (.drw x y n) s =
      .next ((s.setReg 15 (flagByte (s.drawSprite (s.reg x).toNat (s.reg y).toNat n.toNat).2)).display
        (s.drawSprite (s.reg x).toNat (s.reg y).toNat n.toNat).1) := by
  have hin : n.toNat = 0 ∨ s.effAddr 0 + n.toNat ≤ 4096 := by
    rcases h with rfl | h
    · exact .inl rfl
    · simp only [State.effAddr]; omega
  have hload : s.loadBytes? (s.effAddr 0) n.toNat = some (s.spriteRows n.toNat) :=
    State.loadBytes?_eq_some.mpr ⟨(inMemory_iff _ _).mpr hin, rfl⟩
  simp only [exec, execDrw, hload]
  rfl

/-- Settles O47: with the rows in memory the sprite is drawn, out of range the range check raises the fault. -/
theorem drwXorsTheSprite : Obligations.DrwXorsTheSprite := by
  refine fun x y n s => ⟨decodeWord_encode (i := .drw x y n) rfl, fun h => ?_,
    fun h0 h => exec_takesFault_of_expectedCause (i := .drw x y n) (if_pos ⟨h0, h⟩) nofun⟩
  have hn : n.toNat ≤ 32 := by have := n.isLt; omega
  refine ⟨_, exec_drw_of_lt x y h, fun px py hx hy => s.drawSprite_read _ _ hn hx hy, ?_, ?_, rfl,
    (s.setReg_keepsAllBut 15 _).display _⟩
  · rw [State.reg_display, State.reg_setReg_self]
    exact flagByte_eq_one_or_zero _
  · rw [State.reg_display, State.reg_setReg_self, flagByte_eq_one_iff, s.drawSprite_collision _ _ hn]

/-- What a DRW with its rows in memory leaves, of whichever state it leads to. -/
theorem exec_drw_next {x y : RegNo} {n : BitVec 4} {s t : State} (hn : n = 0 ∨ s.I.toNat + n.toNat - 1 < 4096)
    (h : exec (.drw x y n) s = .next t) :
    (∀ px py, px < 64 → py < 32 →
      t.readPixel px py = (s.readPixel px py ^^ spriteOn s (s.reg x).toNat (s.reg y).toNat n.toNat px py)) ∧
    (t.reg 15 = 1 ↔ ∃ px py, px < 64 ∧ py < 32 ∧ s.readPixel px py = true ∧
      spriteOn s (s.reg x).toNat (s.reg y).toNat n.toNat px py = true) ∧
    KeepsAllBut [15] [.picture, .dispWritten] s t := by
  obtain ⟨-, hdraw, -⟩ := drwXorsTheSprite x y n s
  obtain ⟨t', ht', hpix, -, hvf, -, hkeep⟩ := hdraw hn
  cases ht'.symm.trans h
  exact ⟨hpix, hvf, hkeep⟩

/-- Settles O48: the second draw has the same sprite at the same place, so it XORs each pixel with the same bit again, and a bit 1
lies on a pixel that is on before it exactly if that pixel was off before the first. -/
theorem drawTwiceRestoresThePicture : Obligations.DrawTwiceRestoresThePicture := by
  intro x y n s t u hx hy hn ht hu
  obtain ⟨hpix, -, hregs, hparts⟩ := exec_drw_next hn ht
  have hI : t.I = s.I := hparts .index (by decide)
  have hmem : ∀ a, t.mem.read a = s.mem.read a := hparts .memory (by decide)
  obtain ⟨hpix', hvf', -⟩ := exec_drw_next (hI ▸ hn) hu
  rw [spriteOn_congr hmem hI, hregs x (by simpa using hx), hregs y (by simpa using hy)] at hpix' hvf'
  have hfb : u.fb = s.fb := Framebuffer.ext_of_read fun px py hpx hpy => by
    have h := hpix' px py hpx hpy
    rwa [hpix px py hpx hpy, Bool.xor_assoc, Bool.xor_self, Bool.xor_false] at h
  refine ⟨fun px py => by rw [State.readPixel, State.readPixel, hfb], hvf'.trans ?_⟩
  refine exists₂_congr fun px py => and_congr_right fun hpx => and_congr_right fun hpy => and_congr_left fun hon => ?_
  rw [hpix px py hpx hpy, hon, Bool.xor_true, Bool.not_eq_true']

end Sys2Proof.Machine

/-! Keypad (spec/45_keypad.md): which keys SKP and SKNP skip on, when LD Vx, K waits and which key it takes, and what a step that waits
leaves. -/

namespace Sys2Proof.Machine

/-! ## SKP and SKNP (R160, R161) -/

section
variable {s : State} {x : RegNo} (h : (s.reg x).toNat ≤ 15)
include h

theorem State.keyNumber?_of_le : s.keyNumber? x = some ⟨(s.reg x).toNat, Nat.lt_succ_of_le h⟩ :=
  State.keyNumber?_eq_some.mpr rfl

theorem exec_skp_of_le : exec (.skp x) s = .next (s.skipIf (s.input.keys.getLsbD (s.reg x).toNat)) := by
  simp only [exec, execSkp, State.keyNumber?_of_le h, keyGet]

theorem exec_sknp_of_le : exec (.sknp x) s = .next (s.skipIf (!s.input.keys.getLsbD (s.reg x).toNat)) := by
  simp only [exec, execSknp, State.keyNumber?_of_le h, keyGet]

end

theorem State.skipIf_not_pc (s : State) (c : Bool) : (s.skipIf (!c)).pc = if c then s.pc else s.pc + 2 := by
  cases c <;> rfl

/-- Settles O50: with a key number in `VX` each is a skip on the level of that key, above 15 the fault of its rule. -/
theorem keySkipsTestTheLevel : Obligations.KeySkipsTestTheLevel := fun x s =>
  ⟨decodeWord_encode (i := .skp x) rfl, decodeWord_encode (i := .sknp x) rfl,
    fun h => ⟨⟨_, exec_skp_of_le h, s.skipIf_pc _, s.skipIf_keepsAllBut_pc _⟩,
      ⟨_, exec_sknp_of_le h, s.skipIf_not_pc _, s.skipIf_keepsAllBut_pc _⟩⟩,
    fun h => ⟨exec_takesFault_of_expectedCause (i := .skp x) (if_pos h) nofun,
      exec_takesFault_of_expectedCause (i := .sknp x) (if_pos h) nofun⟩⟩

/-! ## The keys newly down (R162) -/

/-- The keys that are down in the sample of the step and were up in that of the previous one. -/
def State.newKeys (s : State) : BitVec 16 := s.input.keys &&& ~~~s.keyPrev

section
variable {s : State} {k : Nat} (hk : k < 16)
include hk

theorem State.newKeys_getLsbD_eq_true :
    s.newKeys.getLsbD k = true ↔ s.input.keys.getLsbD k = true ∧ s.keyPrev.getLsbD k = false := by
  simp [State.newKeys, hk]

theorem State.newKeys_getLsbD_eq_false :
    s.newKeys.getLsbD k = false ↔ (s.input.keys.getLsbD k = true → s.keyPrev.getLsbD k = true) := by
  rw [← Bool.not_eq_true, State.newKeys_getLsbD_eq_true hk, not_and, Bool.not_eq_false]

end

theorem State.newKeys_eq_zero {s : State}
    (h : ∀ k, k < 16 → s.input.keys.getLsbD k = true → s.keyPrev.getLsbD k = true) : s.newKeys = 0 :=
  BitVec.eq_of_getLsbD_eq fun k hk => by
    rw [(State.newKeys_getLsbD_eq_false hk).mpr (h k hk)]
    exact BitVec.getLsbD_zero.symm

/-! ## LD Vx, K (R162) -/

section
variable (x : RegNo) {s : State}

/-- With no key newly down, LD Vx, K takes the fetch advance back. -/
theorem exec_ldVxK_of_newKeys_eq_zero (h : s.newKeys = 0) : exec (.ldVxK x) s = .next (s.setPc (s.pc - 2)) := by
  have hnone : lowestKey (s.input.keys &&& ~~~s.keyPrev) = none := lowestKey_eq_none.mpr h
  simp only [exec, execLdVxK, hnone]

/-- Else it writes the least key newly down to `VX`. -/
theorem exec_ldVxK_of_lowestKey {k : Nat} (h : lowestKey s.newKeys = some k) :
    exec (.ldVxK x) s = .next (s.setReg x (BitVec.ofNat 8 k)) := by
  have hsome : lowestKey (s.input.keys &&& ~~~s.keyPrev) = some k := h
  simp only [exec, execLdVxK, hsome]

end

/-! ## A step that waits (R84, R162) -/

/-- A step is what execution of the decoded instruction leaves, finished. -/
theorem step_of_exec {s t : State} {i : Instr} (hr : s.fault.cause = .running) (hp : s.pc.toNat + 1 < 4096)
    (hd : decodeWord s.wordAtPc = .ok i) (h : exec i s.clearFlags.advance = .next t) : step s = .next t.finish := by
  change exec i { s with sndZero := false, dispWritten := false, pc := s.pc + 2 } = .next t at h
  simp only [stepRunsDecodedInstruction s i hr hp hd, h, State.finish_eq]

theorem State.advance_setPc_sub_two (s : State) : s.advance.setPc (s.advance.pc - 2) = s := by
  simp [State.setPc, State.advance]

/-- A step that waits is its phases 1, 4 and 5: phase 3 takes back what phase 2 advanced. -/
theorem step_of_ldVxK_waits {x : RegNo} {s : State} (hr : s.fault.cause = .running) (hp : s.pc.toNat + 1 < 4096)
    (hd : decodeWord s.wordAtPc = .ok (.ldVxK x)) (h : s.newKeys = 0) :
    step s = .next ((s.clearFlags.tick s.input.tickDue).latch s.input.keys).nextInput := by
  have hexec := exec_ldVxK_of_newKeys_eq_zero x (s := s.clearFlags.advance) h
  rw [s.clearFlags.advance_setPc_sub_two] at hexec
  rw [step_of_exec hr hp hd hexec, State.finish_running (s.clearFlags.not_halted_iff.mpr hr)]
  rfl

/-- The phases 1, 4 and 5 of a step write the timers, the two flags and the key latch, and use up the step inputs. -/
theorem State.clearFlags_tick_latch_nextInput_keepsAllBut (s : State) (due : Bool) (keys : BitVec 16) :
    KeepsAllBut [] [.delay, .sound, .sndZero, .dispWritten, .keyPrev, .inputs] s
      ((s.clearFlags.tick due).latch keys).nextInput := by
  refine ⟨fun r _ => by simp, fun p hp => ?_⟩
  cases p
  case delay | sound | sndZero | dispWritten | keyPrev | inputs => simp at hp
  all_goals simp [Part.Kept, State.readPixel]

/-- A timer after a tick, if one is due, as a number (R194). -/
theorem ite_countDown_toNat (due : Bool) (t : Byte) :
    (if due then countDown t else t).toNat = if due then t.toNat - 1 else t.toNat := by
  rw [apply_ite BitVec.toNat, countDown_toNat]

/-- Settles O51: the key found is the least newly down, so there is none exactly where the wait goes on, and a step that waits is its
phases 1, 4 and 5. -/
theorem keyWaitPollsForAnEdge : Obligations.KeyWaitPollsForAnEdge := by
  refine fun x s => ⟨decodeWord_encode (i := .ldVxK x) rfl, fun h => ?waits, fun k hk hdown hup hleast => ?takes,
    fun hr hp hd h => ?step⟩
  case waits => exact ⟨_, exec_ldVxK_of_newKeys_eq_zero x (State.newKeys_eq_zero h), rfl, s.setPc_keepsAllBut_pc _⟩
  case takes =>
    have hlow : lowestKey s.newKeys = some k :=
      lowestKey_eq_some.mpr ⟨hk, (State.newKeys_getLsbD_eq_true hk).mpr ⟨hdown, hup⟩,
        fun j hj => (State.newKeys_getLsbD_eq_false (hj.trans hk)).mpr (hleast j hj)⟩
    refine ⟨_, exec_ldVxK_of_lowestKey x hlow, ?_, s.setReg_keepsAllBut x _⟩
    rw [State.reg_setReg_self]
    exact Nat.mod_eq_of_lt (by omega)
  case step =>
    refine ⟨_, step_of_ldVxK_waits hr hp hd (State.newKeys_eq_zero h), State.nextInput_keyPrev _, ?_, ?_,
      s.clearFlags_tick_latch_nextInput_keepsAllBut _ _⟩
    · simp only [State.nextInput_DT, State.latch_DT, State.tick_DT, State.clearFlags_DT, ite_countDown_toNat]
    · simp only [State.nextInput_ST, State.latch_ST, State.tick_ST, State.clearFlags_ST, ite_countDown_toNat]

end Sys2Proof.Machine

/-! Timers (spec/46_timers.md): the three moves and what else they leave, and what the tick of the same step makes of the timer just
set. -/

namespace Sys2Proof.Machine

/-! ## Frames -/

/-- A write to the timers is a write to no other store; `snd_zero` is not raised (R171, R172). -/
theorem keepsAllBut_delay_sound (s : State) (delay sound : Byte) :
    KeepsAllBut [] [.delay, .sound] s { s with DT := delay, ST := sound } := by
  refine ⟨fun _ _ => rfl, fun p hp => ?_⟩
  cases p
  case delay | sound => simp at hp
  case memory => exact fun _ => rfl
  case picture => exact fun _ _ => rfl
  case inputs => exact ⟨rfl, rfl⟩
  all_goals rfl

theorem State.setDT_keepsAllBut_delay (s : State) (v : Byte) : KeepsAllBut [] [.delay] s (s.setDT v) :=
  (keepsAllBut_delay_sound s v s.ST).of_kept (by simp [Part.Kept])

theorem State.setST_keepsAllBut_sound (s : State) (v : Byte) : KeepsAllBut [] [.sound] s (s.setST v) :=
  (keepsAllBut_delay_sound s s.DT v).of_kept (by simp [Part.Kept])

/-! ## The whole step (R84, R194) -/

/-- A step whose instruction completes ends with the tick and the key latch of the step's own inputs. -/
theorem step_of_exec_completes {s t : State} {i : Instr} (hr : s.fault.cause = .running) (hp : s.pc.toNat + 1 < 4096)
    (hd : decodeWord s.wordAtPc = .ok i) (h : exec i s.clearFlags.advance = .next t) (hfault : t.fault = s.fault)
    (hinput : t.input = s.input) : step s = .next ((t.tick s.input.tickDue).latch s.input.keys).nextInput := by
  have hrun : t.halted = false := t.not_halted_iff.mpr (by rw [hfault, hr])
  rw [step_of_exec hr hp hd h, State.finish_running hrun, hinput]

/-- Settles O52: each move is one write, and the tick of the step comes after it, on the state it left. -/
theorem timerMoves : Obligations.TimerMoves := by
  refine fun x s => ⟨decodeWord_encode (i := .ldVxDt x) rfl, decodeWord_encode (i := .ldDtVx x) rfl,
    decodeWord_encode (i := .ldStVx x) rfl, ⟨_, rfl, s.reg_setReg_self x _, s.setReg_keepsAllBut x _⟩,
    ⟨_, rfl, rfl, s.setDT_keepsAllBut_delay _⟩, ⟨_, rfl, rfl, s.setST_keepsAllBut_sound _⟩,
    fun hr hp => ⟨fun hd => ?readsDelay, fun hd => ?setsDelay, fun hd => ?setsSound⟩⟩
  case readsDelay =>
    refine ⟨_, step_of_exec_completes hr hp hd rfl rfl rfl, ?_⟩
    simp only [State.reg_nextInput, State.reg_latch, State.reg_tick, State.reg_setReg_self, State.advance_DT, State.clearFlags_DT]
  case setsDelay =>
    refine ⟨_, step_of_exec_completes hr hp hd rfl rfl rfl, ?_⟩
    simp only [State.nextInput_DT, State.latch_DT, State.tick_DT, State.setDT_DT, ite_countDown_toNat, State.reg_advance,
      State.reg_clearFlags]
  case setsSound =>
    refine ⟨_, step_of_exec_completes hr hp hd rfl rfl rfl, ?_, ?_⟩
    · simp only [State.nextInput_ST, State.latch_ST, State.tick_ST, State.setST_ST, ite_countDown_toNat, State.reg_advance,
        State.reg_clearFlags]
    · simp

end Sys2Proof.Machine

/-! Faults, the halted core and the tick (spec/60_exceptions.md): which cause a step records and what it leaves then, and what the
tick of a completed step makes of the timers. -/

namespace Sys2Proof.Machine

/-! ## The faults of the execute phase (R181 to R187) -/

/-- What a cause raised in the execute phase of `i` says of the instruction and the state. -/
def ExecuteCondition (i : Instr) (s : State) : Cause → Prop
  | .running => True
  | .fetchFault => False
  | .decodeError => ∃ nnn, i = .sys nnn
  | .stackOverflow => s.sp.val = 16 ∧ ∃ nnn, i = .call nnn
  | .stackUnderflow => s.sp.val = 0 ∧ i = .ret
  | .dataFault => s.DataOutOfRange i
  | .keyIndexFault => ∃ x, 15 < (s.reg x).toNat ∧ (i = .skp x ∨ i = .sknp x)

/-- A cause guarded by its condition has that condition, or is none. -/
theorem ExecuteCondition.ite {i : Instr} {s : State} {p : Prop} [Decidable p] {c : Cause} (h : p → ExecuteCondition i s c) :
    ExecuteCondition i s (if p then c else .running) := by
  split
  next hp => exact h hp
  next => trivial

/-- The cause expected of an instruction is one of the execute phase, and its condition holds. -/
theorem executeCondition_expectedCause (i : Instr) (s : State) : ExecuteCondition i s (expectedCause i s) := by
  cases i
  case sys nnn => exact ⟨nnn, rfl⟩
  case call nnn => exact .ite fun h => ⟨h, nnn, rfl⟩
  case ret => exact .ite fun h => ⟨h, rfl⟩
  case drw | ldB | storeRegs | loadRegs => exact .ite id
  case skp x => exact .ite fun h => ⟨x, h, .inl rfl⟩
  case sknp x => exact .ite fun h => ⟨x, h, .inr rfl⟩
  all_goals trivial

theorem expectedCause_ne_fetchFault (i : Instr) (s : State) : expectedCause i s ≠ .fetchFault := fun h => by
  have hcond := executeCondition_expectedCause i s
  rwa [h] at hcond

theorem expectedCause_eq_decodeError_iff {i : Instr} {s : State} :
    expectedCause i s = .decodeError ↔ ∃ nnn, i = .sys nnn := by
  constructor
  · intro h
    have hcond := executeCondition_expectedCause i s
    rwa [h] at hcond
  · rintro ⟨nnn, rfl⟩
    rfl

/-! ## The cause a step records (R180, R187) -/

/-- The cause that a step of a running core records, in the order of the phases of R84. -/
def State.stepCause (s : State) : Cause :=
  if 4096 ≤ s.pc.toNat + 1 then .fetchFault
  else match decodeWord s.wordAtPc with
    | .error _ => .decodeError
    | .ok i => expectedCause i s

/-- The word that a faulting step records: 0x0000 where none was fetched (R180). -/
def State.fetchedWord (s : State) : Word := if s.pc.toNat + 1 < 4096 then s.wordAtPc else 0x0000#16

section
variable {s : State}

theorem State.stepCause_of_outside (hp : ¬ s.pc.toNat + 1 < 4096) : s.stepCause = .fetchFault := if_pos (Nat.le_of_not_lt hp)

theorem State.fetchedWord_of_outside (hp : ¬ s.pc.toNat + 1 < 4096) : s.fetchedWord = 0x0000#16 := if_neg hp

section
variable (hp : s.pc.toNat + 1 < 4096)
include hp

theorem State.fetchedWord_of_lt : s.fetchedWord = s.wordAtPc := if_pos hp

theorem State.stepCause_of_error {e : DecodeReject} (hd : decodeWord s.wordAtPc = .error e) : s.stepCause = .decodeError := by
  unfold State.stepCause
  rw [if_neg (Nat.not_le.mpr hp), hd]

theorem State.stepCause_of_ok {i : Instr} (hd : decodeWord s.wordAtPc = .ok i) : s.stepCause = expectedCause i s := by
  unfold State.stepCause
  rw [if_neg (Nat.not_le.mpr hp), hd]

end

theorem State.stepCause_eq_fetchFault_iff : s.stepCause = .fetchFault ↔ ¬ s.pc.toNat + 1 < 4096 := by
  refine ⟨fun h hp => ?_, State.stepCause_of_outside⟩
  cases hd : decodeWord s.wordAtPc with
  | error e => rw [State.stepCause_of_error hp hd] at h; cases h
  | ok i => exact expectedCause_ne_fetchFault i s ((State.stepCause_of_ok hp hd).symm.trans h)

theorem State.stepCause_eq_decodeError_iff :
    s.stepCause = .decodeError ↔ s.pc.toNat + 1 < 4096 ∧
      ((∃ e, decodeWord s.wordAtPc = .error e) ∨ ∃ nnn, decodeWord s.wordAtPc = .ok (.sys nnn)) := by
  by_cases hp : s.pc.toNat + 1 < 4096
  · cases hd : decodeWord s.wordAtPc with
    | error e => simp [State.stepCause_of_error hp hd, hp]
    | ok i => simp [State.stepCause_of_ok hp hd, hp, expectedCause_eq_decodeError_iff]
  · simp [State.stepCause_of_outside hp, hp]

/-- The word recorded, by the cause (R180). -/
theorem State.fetchedWord_eq_ite : s.fetchedWord = if s.stepCause = .fetchFault then 0x0000#16 else s.wordAtPc := by
  unfold State.fetchedWord
  simp only [State.stepCause_eq_fetchFault_iff, ite_not]

/-! ## The condition of the recorded cause -/

/-- A record whose cause is a condition of the execute phase is true of the instruction at `pc`. -/
theorem ExecuteCondition.causeHolds {i : Instr} (h : ExecuteCondition i s s.fault.cause) (hp : s.Fetchable)
    (hd : decodeWord s.wordAtPc = .ok i) : s.CauseHolds := by
  unfold State.CauseHolds
  generalize s.fault.cause = c at h ⊢
  cases c with
  | running => trivial
  | fetchFault => exact h.elim
  | decodeError => obtain ⟨nnn, rfl⟩ := h; exact ⟨hp, .inr ⟨nnn, hd⟩⟩
  | stackOverflow => obtain ⟨hsp, nnn, rfl⟩ := h; exact ⟨hp, hsp, nnn, hd⟩
  | stackUnderflow => obtain ⟨hsp, rfl⟩ := h; exact ⟨hp, hsp, hd⟩
  | dataFault => exact ⟨hp, i, hd, h⟩
  | keyIndexFault =>
    obtain ⟨x, hx, rfl | rfl⟩ := h
    · exact ⟨hp, x, hx, .inl hd⟩
    · exact ⟨hp, x, hx, .inr hd⟩

/-- The cause that a step from this very state would record holds of it. -/
theorem State.causeHolds_of_stepCause (h : s.fault.cause = s.stepCause) : s.CauseHolds := by
  by_cases hp : s.pc.toNat + 1 < 4096
  · cases hd : decodeWord s.wordAtPc with
    | error e =>
      rw [State.stepCause_of_error hp hd] at h
      unfold State.CauseHolds
      rw [h]
      exact ⟨hp, .inl ⟨e, hd⟩⟩
    | ok i =>
      rw [State.stepCause_of_ok hp hd] at h
      exact ExecuteCondition.causeHolds (h ▸ executeCondition_expectedCause i s) hp hd
  · rw [State.stepCause_of_outside hp] at h
    unfold State.CauseHolds
    rw [h]
    exact hp

theorem expectedCause_enterFault (i : Instr) (s : State) (c : Cause) (p op : Word) :
    expectedCause i (s.enterFault c p op) = expectedCause i s := by
  cases i <;> rfl

/-- Fault entry at `pc` leaves all that decides the cause (R188). -/
theorem State.stepCause_enterFault (s : State) (c : Cause) (op : Word) : (s.enterFault c s.pc op).stepCause = s.stepCause := by
  unfold State.stepCause
  simp only [expectedCause_enterFault]
  rfl

/-! ## Fault entry or completion (R84, R188) -/

/-- A step of a running core either enters the fault of `stepCause`, or there is none and it completes the instruction at `pc`, ticks
and latches. -/
theorem step_stepCause_cases {t : State} (hr : s.fault.cause = .running) (h : step s = .next t) :
    (s.stepCause ≠ .running ∧ t = s.enterFault s.stepCause s.pc s.fetchedWord) ∨
    (s.stepCause = .running ∧ s.pc.toNat + 1 < 4096 ∧ ∃ i u, decodeWord s.wordAtPc = .ok i ∧
      Completes i s.clearFlags.advance u ∧ t = ((u.tick s.input.tickDue).latch s.input.keys).nextInput) := by
  rcases step_cases s hr with ⟨hp, hs⟩ | ⟨hp, ⟨e, hd⟩, hs⟩ | ⟨hp, i, hd, hc, hs⟩ | ⟨hp, i, hd, hc, u, -, hu, hs⟩ <;>
    rw [hs] at h <;> cases h
  · rw [State.stepCause_of_outside hp, State.fetchedWord_of_outside hp]
    exact .inl ⟨nofun, rfl⟩
  · rw [State.stepCause_of_error hp hd, State.fetchedWord_of_lt hp]
    exact .inl ⟨nofun, rfl⟩
  · obtain ⟨hword, -⟩ := encode_of_decodeWord hd
    rw [State.stepCause_of_ok hp hd, State.fetchedWord_of_lt hp, hword]
    exact .inl ⟨hc, rfl⟩
  · have hin : u.input = s.input := hu.input.trans (State.input_congr rfl rfl)
    rw [State.stepCause_of_ok hp hd, hin]
    exact .inr ⟨hc, hp, i, u, hd, hu, rfl⟩

section
variable {t : State} (hr : s.fault.cause = .running) (h : step s = .next t)
include hr h

theorem step_cause_eq_stepCause : t.fault.cause = s.stepCause := by
  rcases step_stepCause_cases hr h with ⟨-, rfl⟩ | ⟨hc, -, i, u, -, hu, rfl⟩
  · rfl
  · have hfault : u.fault = s.fault := hu.fault
    simp [hfault, hr, hc]

/-- A step that ends with a cause is fault entry at `pc`. -/
theorem step_eq_enterFault (hc : t.fault.cause ≠ .running) : t = s.enterFault s.stepCause s.pc s.fetchedWord := by
  rw [step_cause_eq_stepCause hr h] at hc
  rcases step_stepCause_cases hr h with ⟨-, ht⟩ | ⟨hrun, -⟩
  · exact ht
  · exact absurd hrun hc

end

end

/-! ## The fault record (R180, R188, R189) -/

/-- Settles O21: a halted core stays as it is, and a cause newly recorded is decided by what fault entry leaves as it was. -/
theorem stepKeepsRecordTrue : Obligations.StepKeepsRecordTrue := by
  intro s t hs h
  by_cases hr : s.fault.cause = .running
  · intro hc
    rw [step_eq_enterFault hr h hc]
    exact ⟨rfl, State.fetchedWord_eq_ite, State.causeHolds_of_stepCause (s.stepCause_enterFault _ _).symm⟩
  · rw [step_of_halted hr] at h
    cases h
    exact hs

/-- Settles O9. -/
theorem haltedStepIsIdentity : Obligations.HaltedStepIsIdentity := fun _ => step_of_halted

/-- Settles O11: the range of `pc` decides whether the cause is FetchFault, and no word is fetched then. -/
theorem fetchFaultExactlyOutsideMemory : Obligations.FetchFaultExactlyOutsideMemory := by
  refine ⟨rfl, fun s t hr h => ⟨fun hp => ?_, fun hp hc => ?_⟩⟩
  · have hout : ¬ s.pc.toNat + 1 < 4096 := Nat.not_lt.mpr hp
    have hcause : t.fault.cause = .fetchFault :=
      (step_cause_eq_stepCause hr h).trans (State.stepCause_of_outside hout)
    have ht := step_eq_enterFault hr h (by rw [hcause]; nofun)
    rwa [State.stepCause_of_outside hout, State.fetchedWord_of_outside hout] at ht
  · rw [step_cause_eq_stepCause hr h, State.stepCause_eq_fetchFault_iff] at hc
    exact hc hp

/-- Settles O12: DecodeError comes of an illegal word or of SYS, and of no other instruction. -/
theorem decodeErrorExactlyAtIllegalOrSys : Obligations.DecodeErrorExactlyAtIllegalOrSys := by
  refine ⟨rfl, fun s t hr h => ?_⟩
  have hcause := step_cause_eq_stepCause hr h
  refine ⟨by rw [hcause, State.stepCause_eq_decodeError_iff], fun hc => ?_⟩
  have ht := step_eq_enterFault hr h (by rw [hc]; nofun)
  have hdec : s.stepCause = .decodeError := hcause.symm.trans hc
  obtain ⟨hp, -⟩ := State.stepCause_eq_decodeError_iff.mp hdec
  rw [ht, hdec, State.fetchedWord_of_lt hp]
  rfl

/-- Settles O13: fault entry at `pc` itself undoes the fetch advance and no more. -/
theorem faultEntryIsAllOrNothing : Obligations.FaultEntryIsAllOrNothing := by
  intro s t hr h hc
  rw [step_cause_eq_stepCause hr h]
  exact step_eq_enterFault hr h hc

/-- Settles O14: the cause is that of the phases in order, recorded by fault entry. -/
theorem oneFaultByPhaseOrder : Obligations.OneFaultByPhaseOrder := by
  refine ⟨fun s t hr h => ⟨step_cause_eq_stepCause hr h, fun hc => ?_⟩, rfl⟩
  rw [step_eq_enterFault hr h hc]
  exact ⟨rfl, rfl⟩

/-! ## The model has no stop -/

/-- Executing an instruction answers a next state: the completed one, or that of fault entry. -/
theorem exec_eq_next (i : Instr) (s : State) : ∃ t, exec i s = .next t := by
  rcases exec_cases i s with ⟨-, t, ht, -⟩ | ⟨-, hraise⟩
  · exact ⟨t, ht⟩
  · exact ⟨_, hraise.trans (s.raise_eq _ i)⟩

/-- Settles O10: a halted core answers itself, and a running one in each of the four cases of a step a next state. -/
theorem everyStateHasNextState : Obligations.EveryStateHasNextState := by
  refine ⟨fun s => ?_, exec_eq_next⟩
  by_cases hr : s.fault.cause = .running
  · rcases step_cases s hr with ⟨-, hs⟩ | ⟨-, -, hs⟩ | ⟨-, _, -, -, hs⟩ | ⟨-, _, -, -, _, -, -, hs⟩ <;>
      exact ⟨_, hs⟩
  · exact ⟨s, step_of_halted hr⟩

/-! ## The tick of a completed step (R194, R195) -/

/-- A step that does not fault ticks the timers that its instruction left, and signals exactly if it ticks `ST` at 1. -/
theorem step_completed_timers {s t : State} (hr : s.fault.cause = .running) (h : step s = .next t)
    (hrun : t.fault.cause = .running) :
    s.pc.toNat + 1 < 4096 ∧ ∃ i, decodeWord s.wordAtPc = .ok i ∧
      t.DT = (if s.input.tickDue then countDown (delayBeforeTick i s) else delayBeforeTick i s) ∧
      t.ST = (if s.input.tickDue then countDown (soundBeforeTick i s) else soundBeforeTick i s) ∧
      (t.sndZero = true ↔ s.input.tickDue = true ∧ soundBeforeTick i s = 1) := by
  rcases step_outcome hr h with ⟨c, op, hc, rfl⟩ | ⟨hp, i, u, hd, hu, rfl⟩
  · exact absurd hrun hc
  · have hdelay := hu.delay
    have hsound := hu.sound
    have hflag : u.sndZero = false := hu.sndZero
    rw [delayBeforeTick_advance] at hdelay
    rw [soundBeforeTick_advance] at hsound
    exact ⟨hp, i, hd, by simp [hdelay], by simp [hsound], by simp [hsound, hflag]⟩

/-- A timer at 1 is the one that a tick takes to 0 from above. -/
theorem eq_one_iff_countDown (v : Byte) : v = 1 ↔ 0 < v.toNat ∧ countDown v = 0 := by
  simp only [← BitVec.toNat_inj, countDown_toNat, BitVec.ofNat_eq_ofNat, BitVec.toNat_ofNat]
  omega

/-- Settles O16: the tick counts down what the instruction left. -/
theorem tickCountsTimersDown : Obligations.TickCountsTimersDown := by
  intro s t i hr _ hd h hrun
  obtain ⟨-, j, hj, hDT, hST, hsnd⟩ := step_completed_timers hr h hrun
  obtain rfl : j = i := Except.ok.inj (hj.symm.trans hd)
  refine ⟨by rw [hDT, ite_countDown_toNat], by rw [hST, ite_countDown_toNat], ?_⟩
  rw [hsnd, hST, eq_one_iff_countDown]
  exact and_congr_right fun hdue => by rw [if_pos hdue]

/-- Settles O17: fault entry clears the signal, and a completed step raises it exactly if it ticks `ST` at 1, which leaves 0. -/
theorem soundSignalExactlyOnOneToZero : Obligations.SoundSignalExactlyOnOneToZero := by
  intro s t hr h
  by_cases hrun : t.fault.cause = .running
  · obtain ⟨hp, i, hd, -, hST, hsnd⟩ := step_completed_timers hr h hrun
    have hzero : s.input.tickDue = true → soundBeforeTick i s = 1 → t.ST = 0 := fun hdue hone => by
      rw [hST, if_pos hdue, hone]
      rfl
    rw [hsnd]
    constructor
    · rintro ⟨hdue, hone⟩
      exact ⟨hrun, hdue, hp, i, hd, hone, hzero hdue hone⟩
    · rintro ⟨-, hdue, -, j, hj, hone, -⟩
      obtain rfl : j = i := Except.ok.inj (hj.symm.trans hd)
      exact ⟨hdue, hone⟩
  · have hsnd : t.sndZero = false := by rw [step_eq_enterFault hr h hrun]; rfl
    simp [hsnd, hrun]

/-! ## Data faults (R185) -/

/-- The four instructions that access memory through `I` fault exactly where their highest address is out of range. -/
theorem expectedCause_of_memoryAccess {i : Instr} (s : State)
    (hi : (∃ x y n, i = .drw x y n) ∨ (∃ x, i = .ldB x) ∨ (∃ x, i = .storeRegs x) ∨ ∃ x, i = .loadRegs x) :
    (s.DataOutOfRange i → expectedCause i s = .dataFault) ∧ (¬ s.DataOutOfRange i → expectedCause i s = .running) := by
  rcases hi with ⟨x, y, n, rfl⟩ | ⟨x, rfl⟩ | ⟨x, rfl⟩ | ⟨x, rfl⟩ <;> exact ⟨fun h => if_pos h, fun h => if_neg h⟩

/-- Settles O45: out of range the execution is fault entry, in range it completes, which leaves the record. -/
theorem dataFaultBeforeFirstAccess : Obligations.DataFaultBeforeFirstAccess := by
  refine ⟨rfl, fun i s hr hi => ?_⟩
  obtain ⟨hfault, hrun⟩ := expectedCause_of_memoryAccess s hi
  by_cases hout : s.DataOutOfRange i
  · obtain ⟨t, ht, htakes⟩ := exec_takesFault_of_expectedCause (hfault hout) nofun
    exact ⟨t, ht, fun _ => htakes, fun hin => absurd hout hin⟩
  · rcases exec_cases i s with ⟨-, t, ht, hcomp⟩ | ⟨hne, -⟩
    · exact ⟨t, ht, fun h => absurd h hout, fun _ => by rw [hcomp.fault, hr]⟩
    · exact absurd (hrun hout) hne

end Sys2Proof.Machine

/-! Launch and the end of a run (spec/70_reset_and_hazards.md): what memory holds before the first step (R203, R204), and that a jump
to itself is run again and again, with the timers, the flags and the key latch alone still moving (R205). -/

namespace Sys2Proof.Machine

/-! ## Launch (R203, R204) -/

/-- A launch state is the reset state with another memory. -/
theorem State.launch_eq (img : List Byte) (withFont : Bool) :
    State.launch img withFont = { State.reset with mem := (State.launch img withFont).mem } := by
  cases withFont <;> rfl

/-- A read after a run of writes, with a default value for the byte of the run. -/
theorem Memory.read_writeList_getD (m : Memory) (a k : Nat) (bs : List Byte) :
    (m.writeList a bs).read k = if a ≤ k ∧ k - a < bs.length then bs.getD (k - a) 0 else m.read k := by
  rw [Memory.read_writeList]
  split
  next h => exact (List.getD_eq_getElem _ _ h.2).symm
  next => rfl

/-- Memory before the image is loaded: the font if it is loaded, and zero elsewhere. -/
theorem State.read_loadFont_reset (withFont : Bool) (a : Nat) :
    (if withFont then State.reset.loadFont else State.reset).mem.read a =
      if withFont = true ∧ a < 80 then Config.fontBytes.getD a 0 else 0 := by
  cases withFont
  case false => rfl
  case true =>
    simp only [if_true, true_and, State.loadFont, Memory.read_writeList_getD, fontBytes_length, Nat.zero_le, Nat.sub_zero]
    rfl

/-- Memory of a launch state: the image where it and memory reach, elsewhere what was there before it. -/
theorem State.read_launch (img : List Byte) (withFont : Bool) (a : Nat) :
    (State.launch img withFont).mem.read a =
      if 0x200 ≤ a ∧ a < 4096 ∧ a - 0x200 < img.length then img.getD (a - 0x200) 0
      else if withFont = true ∧ a < 80 then Config.fontBytes.getD a 0
      else 0 := by
  rw [State.launch, State.read_loadImage, State.read_loadFont_reset]
  split
  next h =>
    obtain ⟨-, -, himg⟩ := h
    exact (List.getD_eq_getElem _ _ himg).symm
  next => rfl

/-- Settles O24: but for memory a launch state is the reset state, and memory is the image over the font over zeros. -/
theorem launchStateHoldsFontAndImage : Obligations.LaunchStateHoldsFontAndImage := by
  intro img withFont
  have hread := State.read_launch img withFont
  rw [State.launch_eq] at hread ⊢
  exact ⟨rfl, rfl, rfl, rfl, rfl, Framebuffer.read_cleared, keepsAllBut_memory _ _, hread⟩

/-! ## The end of a run (R205) -/

/-- What a step of an ended run leaves: phase 1, and phases 4 and 5 with the step's own inputs (R84). -/
def State.idle (s : State) : State := ((s.clearFlags.tick s.input.tickDue).latch s.input.keys).nextInput

/-- Idling, however long, writes neither the program's state nor the fault record. -/
theorem State.iterate_idle_keeps (k : Nat) (s : State) :
    (State.idle^[k] s).V = s.V ∧ (State.idle^[k] s).I = s.I ∧ (State.idle^[k] s).pc = s.pc ∧
    (State.idle^[k] s).stack = s.stack ∧ (State.idle^[k] s).sp = s.sp ∧ (State.idle^[k] s).mem = s.mem ∧
    (State.idle^[k] s).fb = s.fb ∧ (State.idle^[k] s).fault = s.fault := by
  induction k with
  | zero => exact ⟨rfl, rfl, rfl, rfl, rfl, rfl, rfl, rfl⟩
  | succ k ih =>
    rw [Function.iterate_succ_apply']
    simpa [State.idle] using ih

/-- The first step of idling clears the display flag, and no later one raises it. -/
theorem State.iterate_idle_dispWritten {k : Nat} (hk : 0 < k) (s : State) : (State.idle^[k] s).dispWritten = false := by
  obtain ⟨j, rfl⟩ := Nat.exists_eq_succ_of_ne_zero hk.ne'
  rw [Function.iterate_succ_apply']
  simp [State.idle]

/-- Whether a run has ended depends on the fault record, `pc` and memory alone. -/
theorem State.EndedAt.congr {s t : State} {a : Word} (h : s.EndedAt a) (hfault : t.fault = s.fault) (hpc : t.pc = s.pc)
    (hmem : t.mem = s.mem) : t.EndedAt a := by
  unfold State.EndedAt
  rwa [hfault, hpc, hmem]

theorem State.EndedAt.iterate_idle {s : State} {a : Word} (h : s.EndedAt a) (k : Nat) : (State.idle^[k] s).EndedAt a := by
  obtain ⟨-, -, hpc, -, -, hmem, -, hfault⟩ := s.iterate_idle_keeps k
  exact h.congr hfault hpc hmem

/-- The word at the end of a run is that of a jump to its own address. -/
theorem State.EndedAt.decodeWord_wordAtPc {s : State} {a : Word} (h : s.EndedAt a) :
    decodeWord s.wordAtPc = .ok (.jp (a.setWidth 12)) := by
  obtain ⟨-, rfl, -, hpc, hhi, hlo⟩ := h
  have hword : s.wordAtPc = encode (.jp (s.pc.setWidth 12)) := by
    apply BitVec.eq_of_toNat_eq
    simp only [State.wordAtPc, hhi, hlo, encode, encodeNNN_toNat, BitVec.toNat_ofNat, BitVec.toNat_setWidth]
    omega
  rw [hword, decodeWord_encode rfl]

/-- A step of an ended run: the jump takes `pc` back to where it was before the fetch advanced it. -/
theorem step_of_endedAt {s : State} {a : Word} (h : s.EndedAt a) : step s = .next s.idle := by
  have hd := h.decodeWord_wordAtPc
  obtain ⟨hr, rfl, hp, hpc, -, -⟩ := h
  have htarget : zextNNN (s.pc.setWidth 12) = s.pc := by
    apply BitVec.eq_of_toNat_eq
    rw [zextNNN_toNat, BitVec.toNat_setWidth]
    omega
  have hexec : exec (.jp (s.pc.setWidth 12)) s.clearFlags.advance = .next s.clearFlags :=
    congrArg (fun target => Host.Outcome.next (s.clearFlags.advance.setPc target)) htarget
  exact step_of_exec_completes hr hp hd hexec rfl rfl

/-- The first step of a run, on any core, peeled off. -/
theorem run_succ_of_step {M : Host.Core} {s t : M.State} (h : M.step s = .next t) (k : Nat) : M.run (k + 1) s = M.run k t := by
  simp only [Host.Core.run, h]

/-- A run from where it has ended idles. -/
theorem run_of_endedAt (k : Nat) {s : State} {a : Word} (h : s.EndedAt a) :
    Host.Core.run core k s = .next (State.idle^[k] s) := by
  induction k generalizing s with
  | zero => rfl
  | succ k ih =>
    rw [Function.iterate_succ_apply]
    exact (run_succ_of_step (step_of_endedAt h) k).trans (ih (h.iterate_idle 1))

/-- Settles O25: the run idles, which leaves the program's state, and one step of idling is a tick and a key latch. -/
theorem endedRunStaysEnded : Obligations.EndedRunStaysEnded := by
  refine ⟨fun k s a h => ?_, fun s a h => ⟨_, step_of_endedAt h, State.nextInput_keyPrev _, ?delay, ?sound, ?signal⟩⟩
  · obtain ⟨hV, hI, hpc, hstack, hsp, hmem, hfb, -⟩ := s.iterate_idle_keeps k
    exact ⟨_, run_of_endedAt k h, h.iterate_idle k, hV, hI, hpc, hstack, hsp, hmem, hfb, fun hk =>
      State.iterate_idle_dispWritten hk s⟩
  case delay =>
    simp only [State.idle, State.nextInput_DT, State.latch_DT, State.tick_DT, State.clearFlags_DT, ite_countDown_toNat]
  case sound =>
    simp only [State.idle, State.nextInput_ST, State.latch_ST, State.tick_ST, State.clearFlags_ST, ite_countDown_toNat]
  case signal => simp [State.idle]

end Sys2Proof.Machine
